-- ==== Sys2Proof/Word.lean ====
section
/-! DEFINITION. The widths of GCM-CORE: bytes of the buffers (10_state.md R26), 32-bit control/status registers and
command words (00_scope.md R8) and 128-bit blocks (00_scope.md R9). -/

namespace Sys2Proof

/-- One byte of a buffer, 10_state.md R26. -/
abbrev Byte := BitVec 8

/-- A control/status register or a command word, 00_scope.md R8. -/
abbrev Word := BitVec 32

/-- A block: bit 127 is the most significant bit of byte 0, 00_scope.md R9. -/
abbrev Block := BitVec 128

end Sys2Proof
end

