-- ==== Sys2Proof/Machine/Bytes.lean ====
section
/-! DEFINITION. Byte strings and blocks: the pseudocode primitives of 00_scope.md R10 and the cutting of strings into blocks of
20_memory.md R59. Everything is big-endian (20_memory.md R51, R52). -/

namespace Sys2Proof.Machine

/-- Append one byte at the low end. -/
def shiftIn (b : Block) (x : Byte) : Block := (b <<< 8) ||| x.setWidth 128

/-- The block whose byte 0 is the first byte of the string, 20_memory.md R51. -/
def blockOfBytes (s : List Byte) : Block := s.foldl shiftIn 0#128

/-- Byte j of a block, bits [127-8j : 120-8j], 00_scope.md R9. -/
def blockByte (b : Block) (j : Nat) : Byte := b.extractLsb' (120 - 8 * j) 8

/-- The sixteen bytes of a block, byte 0 first, 00_scope.md R9. -/
def bytesOfBlock (b : Block) : List Byte := (List.range 16).map (blockByte b)

/-- The k-byte big-endian encoding of n, 00_scope.md R10. -/
def bigEndian : Nat → Nat → List Byte
  | 0, _ => []
  | k + 1, n => BitVec.ofNat 8 (n >>> (8 * k)) :: bigEndian k n

/-- be64, 00_scope.md R10. -/
def be64 (n : Nat) : List Byte := bigEndian 8 n

/-- be32, 00_scope.md R10. -/
def be32 (n : Nat) : List Byte := bigEndian 4 n

/-- n zero bytes, the string 0^(8n) of 00_scope.md R10. -/
def zeros (n : Nat) : List Byte := List.replicate n 0#8

/-- bitlen, 00_scope.md R10. -/
def bitlen (s : List Byte) : Nat := 8 * s.length

/-- pad128, 00_scope.md R10: zero bytes up to the next multiple of 16, none for the empty string. -/
def pad128 (s : List Byte) : List Byte := s ++ zeros ((16 - s.length % 16) % 16)

/-- truncate(v, nbits): the leading nbits/8 bytes, 43_gctr.md R132. -/
def truncate (v : Block) (nbits : Nat) : List Byte := (bytesOfBlock v).take (nbits / 8)

/-- Bytewise exclusive or of strings of equal length, 00_scope.md R11 (b). -/
def xorBytes (a b : List Byte) : List Byte := List.zipWith (· ^^^ ·) a b

/-- The first n blocks of a string cut at multiples of 16; the last may be short, 20_memory.md R59. -/
def cutInto : Nat → List Byte → List (List Byte)
  | 0, _ => []
  | n + 1, s => s.take 16 :: cutInto n (s.drop 16)

/-- The ceil(L/16) blocks of a string of L bytes, 20_memory.md R59. -/
def cut (s : List Byte) : List (List Byte) := cutInto ((s.length + 15) / 16) s

/-- The blocks of a string of whole blocks, as block values, 20_memory.md R59. -/
def wholeBlocks (s : List Byte) : List Block := (cut s).map blockOfBytes

end Sys2Proof.Machine
end

