-- ==== Sys2Proof/Config.lean ====
section
/-! DEFINITION. What one instance of GCM-CORE fixes and what the spec leaves open: the parameters of 00_scope.md R7 and the
free values of 10_state.md R34 and R35. No constant here has a body, so nothing can be proved of its value beyond its type;
the capacities are cut to the ranges R7 states. -/

namespace Sys2Proof

/-- The parameters an instance takes as arguments, 00_scope.md R7: three buffer capacities in bytes and the provider
E of 50_block_cipher_port.md R171, a function of the key's bytes and a block. -/
structure Params where
  capIv  : Nat
  capAad : Nat
  capDin : Nat
  cipher : List Byte → Block → Block

namespace Config

/-- What CAP_IV is cut from (log 6). -/
opaque rawCapIv : BitVec 32

/-- What CAP_AAD is taken from (log 6). -/
opaque rawCapAad : BitVec 32

/-- What CAP_DIN is cut from (log 6). -/
opaque rawCapDin : BitVec 32

/-- The block-cipher provider of this instance, 50_block_cipher_port.md R170, R171, R173 (log 7). -/
opaque blockCipher : List Byte → Block → Block

/-- The value a block register reads as between the n-th reset and its first write: a free value for each reset and each
register index, 10_state.md R34, R35 (log 4). -/
opaque unspecifiedBlock : Nat → Nat → Block

/-- CAP_IV: every value with 12 <= CAP_IV < 2^32, 00_scope.md R7. -/
def capIv : Nat := max 12 rawCapIv.toNat

/-- CAP_AAD: every value with 0 <= CAP_AAD < 2^32, 00_scope.md R7. -/
def capAad : Nat := rawCapAad.toNat

/-- CAP_DIN: every value with 16 <= CAP_DIN < 2^32 - 16, 00_scope.md R7. -/
def capDin : Nat := min (max 16 rawCapDin.toNat) 4294967279

/-- This instance's parameters. -/
def params : Params := { capIv := capIv, capAad := capAad, capDin := capDin, cipher := blockCipher }

end Config

end Sys2Proof
end

