-- ==== Sys2Proof/Syntax.lean ====
section
/-! DEFINITION. The commands of GCM-CORE, one constructor for each row of the opcode map (30_encoding.md R83). -/

namespace Sys2Proof

/-- A command. A format-T command carries TLEN, its tag length in bits, an unsigned count used as it stands
(30_encoding.md R81, R82). Every other operand is in the registers and buffers (R80). -/
inductive Instr where
  /-- GFMUL, OPC 0x01, 40_gf_multiplier.md R102. -/
  | gfmul
  /-- GHASH, OPC 0x02, 41_ghash.md R112. -/
  | ghash
  /-- DERIVEJ0, OPC 0x03, 42_counter.md R122. -/
  | derivej0
  /-- INC32, OPC 0x04, 42_counter.md R124. -/
  | inc32
  /-- GCTR, OPC 0x05, 43_gctr.md R133. -/
  | gctr
  /-- DERIVECOMMON, OPC 0x06, 44_tag_engine.md R141. -/
  | derivecommon
  /-- COMPUTETAG, OPC 0x07, 44_tag_engine.md R144. -/
  | computetag (tlen : Nat)
  /-- ENCRYPT, OPC 0x08, 45_aead_ops.md R151. -/
  | encrypt (tlen : Nat)
  /-- DECRYPT, OPC 0x09, 45_aead_ops.md R152. -/
  | decrypt (tlen : Nat)
  /-- ENCRYPTAPPEND, OPC 0x0A, 45_aead_ops.md R154. -/
  | encryptappend (tlen : Nat)
  /-- DECRYPTAPPENDED, OPC 0x0B, 45_aead_ops.md R155. -/
  | decryptappended (tlen : Nat)
deriving DecidableEq, Repr

end Sys2Proof
end

