-- ==== Sys2Proof/WellFormed.lean ====
section
/-! DEFINITION. Which commands have an encoding: TLEN is an 8-bit field, so a format-T command is representable exactly
when its tag length is at most 255 (30_encoding.md R82). Legality of the tag length is not checked here: an illegal TLEN is a
legal encoding (R86). -/

namespace Sys2Proof

/-- The command's TLEN field; a format-N command has zero there (30_encoding.md R81). -/
def Instr.tlen : Instr → Nat
  | .gfmul | .ghash | .derivej0 | .inc32 | .gctr | .derivecommon => 0
  | .computetag t | .encrypt t | .decrypt t | .encryptappend t | .decryptappended t => t

/-- TLEN fits its 8-bit field, 30_encoding.md R82: "range 0 to 255". -/
abbrev WellFormed (i : Instr) : Prop := i.tlen < 256

end Sys2Proof
end

