-- ==== Sys2Proof/Decode.lean ====
section
/-! DEFINITION. Decoding and encoding of command words (30_encoding.md R81 to R87). A command word is one 32-bit value with no
byte view (20_memory.md R53), so decoding reads bit fields of a word and no byte order enters. -/

namespace Sys2Proof

/-- Why a word selects no command (30_encoding.md R85). -/
inductive DecodeError where
  /-- Bits 31..16 are not all zero. -/
  | reservedBits
  /-- A format-N opcode with nonzero bits 15..8. -/
  | formatNWithTlen
  /-- OPC 0x00, or 0x0C to 0xFF. -/
  | noSuchOpcode
deriving DecidableEq, Repr

/-- Field OPC, bits 7..0 (30_encoding.md R81). -/
def fieldOpc (w : Word) : Nat := (w.extractLsb' 0 8).toNat

/-- Field TLEN, bits 15..8 (30_encoding.md R81, R82). -/
def fieldTlen (w : Word) : Nat := (w.extractLsb' 8 8).toNat

/-- The reserved field, bits 31..16 (30_encoding.md R81). -/
def fieldReserved (w : Word) : Nat := (w.extractLsb' 16 16).toNat

/-- A format-N command: bits 15..8 must be zero (30_encoding.md R84). -/
def decodeN (i : Instr) (tlen : Nat) : Except DecodeError Instr :=
  if tlen = 0 then .ok i else .error .formatNWithTlen

/-- decode(w), total on 32-bit words, 30_encoding.md R84. -/
def decode (w : Word) : Except DecodeError Instr :=
  if fieldReserved w ≠ 0 then .error .reservedBits
  else
    match fieldOpc w with
    | 1 => decodeN .gfmul (fieldTlen w)
    | 2 => decodeN .ghash (fieldTlen w)
    | 3 => decodeN .derivej0 (fieldTlen w)
    | 4 => decodeN .inc32 (fieldTlen w)
    | 5 => decodeN .gctr (fieldTlen w)
    | 6 => decodeN .derivecommon (fieldTlen w)
    | 7 => .ok (.computetag (fieldTlen w))
    | 8 => .ok (.encrypt (fieldTlen w))
    | 9 => .ok (.decrypt (fieldTlen w))
    | 10 => .ok (.encryptappend (fieldTlen w))
    | 11 => .ok (.decryptappended (fieldTlen w))
    | _ => .error .noSuchOpcode

/-- The command a table word of `nbits` bits stands for: bit 0 is the least significant bit of the one 32-bit command word
and every bit from `nbits` on is zero. -/
def decodeTableWord (nbits w : Nat) : Option Instr :=
  match decode (BitVec.ofNat 32 (w % 2 ^ nbits)) with
  | .ok i => some i
  | .error _ => none

/-- OPC of each command (30_encoding.md R83). -/
def Instr.opcode : Instr → Nat
  | .gfmul => 0x01
  | .ghash => 0x02
  | .derivej0 => 0x03
  | .inc32 => 0x04
  | .gctr => 0x05
  | .derivecommon => 0x06
  | .computetag _ => 0x07
  | .encrypt _ => 0x08
  | .decrypt _ => 0x09
  | .encryptappend _ => 0x0A
  | .decryptappended _ => 0x0B

/-- The command word of a well-formed command: OPC in bits 7..0, TLEN in bits 15..8, the rest zero (30_encoding.md R81;
R88: `OPC + 256 * t`). -/
def encode (i : Instr) : Word := BitVec.ofNat 32 (i.opcode + 256 * i.tlen)

/-- A row of the opcode map: a word w selects the row when `w & mask == pattern` (30_encoding.md R83, columns mask and
match). -/
structure OpcodeRow where
  pattern : Word
  mask    : Word
deriving DecidableEq, Repr

/-- The eleven rows of the opcode map in its order (30_encoding.md R83). -/
def opcodeMap : List OpcodeRow :=
  [⟨0x00000001#32, 0xFFFFFFFF#32⟩, ⟨0x00000002#32, 0xFFFFFFFF#32⟩, ⟨0x00000003#32, 0xFFFFFFFF#32⟩,
   ⟨0x00000004#32, 0xFFFFFFFF#32⟩, ⟨0x00000005#32, 0xFFFFFFFF#32⟩, ⟨0x00000006#32, 0xFFFFFFFF#32⟩,
   ⟨0x00000007#32, 0xFFFF00FF#32⟩, ⟨0x00000008#32, 0xFFFF00FF#32⟩, ⟨0x00000009#32, 0xFFFF00FF#32⟩,
   ⟨0x0000000A#32, 0xFFFF00FF#32⟩, ⟨0x0000000B#32, 0xFFFF00FF#32⟩]

/-- The row of the opcode map that belongs to a command (30_encoding.md R83). -/
def Instr.row : Instr → OpcodeRow
  | .gfmul => ⟨0x00000001#32, 0xFFFFFFFF#32⟩
  | .ghash => ⟨0x00000002#32, 0xFFFFFFFF#32⟩
  | .derivej0 => ⟨0x00000003#32, 0xFFFFFFFF#32⟩
  | .inc32 => ⟨0x00000004#32, 0xFFFFFFFF#32⟩
  | .gctr => ⟨0x00000005#32, 0xFFFFFFFF#32⟩
  | .derivecommon => ⟨0x00000006#32, 0xFFFFFFFF#32⟩
  | .computetag _ => ⟨0x00000007#32, 0xFFFF00FF#32⟩
  | .encrypt _ => ⟨0x00000008#32, 0xFFFF00FF#32⟩
  | .decrypt _ => ⟨0x00000009#32, 0xFFFF00FF#32⟩
  | .encryptappend _ => ⟨0x0000000A#32, 0xFFFF00FF#32⟩
  | .decryptappended _ => ⟨0x0000000B#32, 0xFFFF00FF#32⟩

/-- The word selects the row (30_encoding.md R83). -/
def OpcodeRow.selects (r : OpcodeRow) (w : Word) : Bool := w &&& r.mask == r.pattern

end Sys2Proof
end

