-- ==== Sys2Proof/Machine/State.lean ====
section
/-! DEFINITION. The state of GCM-CORE as plain data (10_state.md), the host's moves (20_memory.md R54), the reasons a step can
stop, and the state after reset (10_state.md R34). -/

namespace Sys2Proof.Machine

/-- The seven block registers, 10_state.md R20. -/
inductive BlkReg where
  | mx | my | mz | hk | j0 | cb | gy
deriving DecidableEq, Repr

/-- The six buffers, each its own address space from offset 0, 10_state.md R26, 20_memory.md R50. -/
inductive Buf where
  | key | iv | aad | din | dout | tag
deriving DecidableEq, Repr

/-- The contents of the block registers, 10_state.md R20. -/
structure BlockRegs where
  mx : Block
  my : Block
  mz : Block
  hk : Block
  j0 : Block
  cb : Block
  gy : Block
deriving DecidableEq, Repr

/-- One buffer's bytes that hold a value, by offset. An offset that is not listed holds no value (10_state.md R35, log 5). -/
abbrev Memory := List Host.Cell

/-- The canonical form: offsets strictly rising, so equal buffers are equal lists. No entry can equal what an unlisted offset
reads as, since an unlisted offset holds no value. -/
abbrev Memory.wf (m : Memory) : Prop := m.Pairwise fun c d => c.1 < d.1

/-- The six buffers, 10_state.md R26. -/
structure Buffers where
  key  : Memory
  iv   : Memory
  aad  : Memory
  din  : Memory
  dout : Memory
  tag  : Memory
deriving DecidableEq, Repr

/-- The error kinds, 60_exceptions.md R180. They are ordinary completions with a code, never a stop of the machine (R186). -/
inductive ErrorKind where
  | invalidKeyLength | invalidTagLength | authenticationFailure | malformedInput | illegalCommand | operandLength
deriving DecidableEq, Repr

/-- The host's moves, "exactly these", 20_memory.md R54. A block register is named by one of seven names, so an index above 6
cannot be written (93 U2); a CSR index is any natural (10_state.md R23). -/
inductive HostMove where
  | csrRead (n : Nat)
  | csrWrite (n : Nat) (v : Word)
  | blkRead (r : BlkReg)
  | blkWrite (r : BlkReg) (v : Block)
  | bufRead (b : Buf) (a : Nat)
  | bufWrite (b : Buf) (a : Nat) (v : Byte)
deriving DecidableEq, Repr

/-- What the outside world does to the machine: a host move, or a reset, which happens only between commands
(70_reset_and_hazards.md R200, 93 U18). -/
inductive Input where
  | move (m : HostMove)
  | reset
deriving DecidableEq, Repr

/-- A value a host read returned (20_memory.md R54). -/
inductive Answer where
  | csr (v : Word)
  | blk (v : Block)
  | byte (v : Byte)
deriving DecidableEq, Repr

/-- The machine's state. `blk` to `buf` are the spec's registers and buffers (10_state.md R20, R23, R26; CMD has no stored
bits, R24). `pending`, `answers` and `resets` are the model's own: the inputs still to come, oldest first (log 1); the values
host reads returned, newest first (log 3); the number of resets applied, which selects fresh free values (log 4). -/
structure State where
  blk     : BlockRegs
  status  : Word
  keylen  : Word
  ivlen   : Word
  aadlen  : Word
  dinlen  : Word
  doutlen : Word
  buf     : Buffers
  pending : List Input
  answers : List Answer
  resets  : Nat
deriving DecidableEq, Repr

/-- Why a step has no next state. -/
inductive Fault where
  /-- A command or a host read takes a byte of buffer `b` that has held no value since reset (93 U1, 10_state.md R35). Raised by
  every command that reads a buffer and by BufRead. Safe: the spec gives no result. -/
  | unwrittenByte (b : Buf)
  /-- A host buffer move names offset `a` of `b`, at or above the capacity: no such move exists (20_memory.md R54, 93 U2,
  "stuck"). Raised by BufRead and BufWrite. Safe. -/
  | noSuchLocation (b : Buf) (a : Nat)
deriving DecidableEq, Repr

/-- Why an instruction has no meaning. -/
inductive Refusal where
  /-- An instruction without a meaning yet, by its mnemonic. Raised by exec's refused arms only (there are none). Safe. -/
  | notModelled (mnemonic : String)
deriving DecidableEq, Repr

/-- The state a reset leaves, 10_state.md R34: STATUS and the five length registers 0, every buffer byte without a value, the
block registers unspecified, here the free values of the n-th reset (log 4). -/
def State.afterReset (n : Nat) : State :=
  { blk :=
      { mx := Config.unspecifiedBlock n 0
        my := Config.unspecifiedBlock n 1
        mz := Config.unspecifiedBlock n 2
        hk := Config.unspecifiedBlock n 3
        j0 := Config.unspecifiedBlock n 4
        cb := Config.unspecifiedBlock n 5
        gy := Config.unspecifiedBlock n 6 }
    status := 0#32
    keylen := 0#32
    ivlen := 0#32
    aadlen := 0#32
    dinlen := 0#32
    doutlen := 0#32
    buf := { key := [], iv := [], aad := [], din := [], dout := [], tag := [] }
    pending := []
    answers := []
    resets := n }

/-- The machine right after reset, 10_state.md R34, 70_reset_and_hazards.md R200, with no input waiting (R201). -/
def State.reset : State := State.afterReset 0

end Sys2Proof.Machine
end

