-- ==== Sys2Proof/Machine/Flags.lean ====
section
/-! DEFINITION. STATUS, the only flag-like state (10_state.md R25, R31): its fields, the completion codes (60_exceptions.md R180) and
the one way it is written, by command completion (R184, R185). -/

namespace Sys2Proof.Machine

/-- The code number of an error kind, 60_exceptions.md R180. -/
def ErrorKind.code : ErrorKind → BitVec 4
  | .invalidKeyLength => 1#4
  | .invalidTagLength => 2#4
  | .authenticationFailure => 3#4
  | .malformedInput => 4#4
  | .illegalCommand => 5#4
  | .operandLength => 6#4

/-- STATUS.CODE, bits [3:0], 10_state.md R25. -/
def statusCode (w : Word) : BitVec 4 := w.extractLsb' 0 4

/-- STATUS.DONE, bit [8], 10_state.md R25. -/
def statusDone (w : Word) : Bool := w.getLsbD 8

/-- The reserved bits of STATUS, [7:4] and [31:9], 10_state.md R25. -/
def statusReserved (w : Word) : Word := w &&& 0xFFFFFEF0#32

/-- STATUS after a completion: CODE <- c and DONE <- 1, the other bits as they were (60_exceptions.md R184, R185). -/
def statusAfter (w : Word) (c : BitVec 4) : Word := statusReserved w ||| 0x100#32 ||| c.setWidth 32

/-- CODE of a state. -/
def State.code (s : State) : BitVec 4 := statusCode s.status

/-- DONE of a state. -/
def State.done (s : State) : Bool := statusDone s.status

end Sys2Proof.Machine
end

