-- ==== Sys2Proof/Machine/Ops.lean ====
section
/-! DEFINITION. The named operations over registers and buffers (10_state.md R20 to R37, 20_memory.md R54 to R60) and command
completion, with and without an error (60_exceptions.md R184, R185): the one place where a command's ending is described. There is
no return from an error (R187): the failed command is over. -/

namespace Sys2Proof.Machine

/-- What a step or a command answers. -/
abbrev Result := Host.Outcome State Fault Refusal

/-! Block registers -/

/-- The index of a block register, 10_state.md R20. -/
def BlkReg.index : BlkReg → Nat
  | .mx => 0
  | .my => 1
  | .mz => 2
  | .hk => 3
  | .j0 => 4
  | .cb => 5
  | .gy => 6

/-- x[r], 00_scope.md R10. -/
def BlockRegs.get (x : BlockRegs) : BlkReg → Block
  | .mx => x.mx
  | .my => x.my
  | .mz => x.mz
  | .hk => x.hk
  | .j0 => x.j0
  | .cb => x.cb
  | .gy => x.gy

/-- x[r] <- v, 00_scope.md R10. -/
def BlockRegs.set (x : BlockRegs) (r : BlkReg) (v : Block) : BlockRegs :=
  match r with
  | .mx => { x with mx := v }
  | .my => { x with my := v }
  | .mz => { x with mz := v }
  | .hk => { x with hk := v }
  | .j0 => { x with j0 := v }
  | .cb => { x with cb := v }
  | .gy => { x with gy := v }

/-- Read a block register, 20_memory.md R54. -/
def State.getBlk (s : State) (r : BlkReg) : Block := s.blk.get r

/-- Write a block register, 20_memory.md R54. -/
def State.setBlk (s : State) (r : BlkReg) (v : Block) : State := { s with blk := s.blk.set r v }

/-! Control/status registers -/

/-- CsrRead(n): CMD reads 0, an index above 6 reads 0 (10_state.md R23, R24; 20_memory.md R54). -/
def State.csr (s : State) (n : Nat) : Word :=
  match n with
  | 1 => s.status
  | 2 => s.keylen
  | 3 => s.ivlen
  | 4 => s.aadlen
  | 5 => s.dinlen
  | 6 => s.doutlen
  | _ => 0#32

/-- CsrWrite(n, v) for n other than CMD: KEYLEN, IVLEN, AADLEN and DINLEN take the value, every other index ignores it
(10_state.md R23, 20_memory.md R54). -/
def State.setCsr (s : State) (n : Nat) (v : Word) : State :=
  match n with
  | 2 => { s with keylen := v }
  | 3 => { s with ivlen := v }
  | 4 => { s with aadlen := v }
  | 5 => { s with dinlen := v }
  | _ => s

/-! Buffers -/

/-- The byte at offset a, if it holds a value (10_state.md R35). -/
def Memory.read : Memory → Nat → Option Byte
  | [], _ => none
  | (k, v) :: m, a => if k = a then some v else Memory.read m a

/-- Write one byte, keeping the offsets rising. -/
def Memory.write : Memory → Nat → Byte → Memory
  | [], a, v => [(a, v)]
  | (k, w) :: m, a, v =>
    if a < k then (a, v) :: (k, w) :: m
    else if a = k then (a, v) :: m
    else (k, w) :: Memory.write m a v

/-- MemRead of n bytes from offset a; no result when one of them holds no value (00_scope.md R10, 10_state.md R35). -/
def Memory.readBytes (m : Memory) (a : Nat) : Nat → Option (List Byte)
  | 0 => some []
  | n + 1 =>
    match m.read a, m.readBytes (a + 1) n with
    | some v, some vs => some (v :: vs)
    | _, _ => none

/-- MemWrite of a byte string from offset a, first byte at offset a (00_scope.md R10). -/
def Memory.writeBytes : Memory → Nat → List Byte → Memory
  | m, _, [] => m
  | m, a, v :: vs => Memory.writeBytes (m.write a v) (a + 1) vs

/-- The contents of a buffer. -/
def Buffers.get (u : Buffers) : Buf → Memory
  | .key => u.key
  | .iv => u.iv
  | .aad => u.aad
  | .din => u.din
  | .dout => u.dout
  | .tag => u.tag

/-- Replace the contents of a buffer. -/
def Buffers.set (u : Buffers) (b : Buf) (m : Memory) : Buffers :=
  match b with
  | .key => { u with key := m }
  | .iv => { u with iv := m }
  | .aad => { u with aad := m }
  | .din => { u with din := m }
  | .dout => { u with dout := m }
  | .tag => { u with tag := m }

/-- The byte at offset a of buffer b, if it holds a value (20_memory.md R54, 10_state.md R35). -/
def State.byte (s : State) (b : Buf) (a : Nat) : Option Byte := (s.buf.get b).read a

/-- Write one byte of a buffer. -/
def State.setByte (s : State) (b : Buf) (a : Nat) (v : Byte) : State :=
  { s with buf := s.buf.set b ((s.buf.get b).write a v) }

/-- MemWrite(b+a, n, v) of 00_scope.md R10, with the n-byte string v. -/
def State.setBytes (s : State) (b : Buf) (a : Nat) (v : List Byte) : State :=
  { s with buf := s.buf.set b ((s.buf.get b).writeBytes a v) }

/-- A buffer's capacity in bytes, 10_state.md R26. -/
def capacity (p : Params) : Buf → Nat
  | .key => 32
  | .iv => p.capIv
  | .aad => p.capAad
  | .din => p.capDin
  | .dout => p.capDin + 16
  | .tag => 16

/-! Results and completion -/

/-- The result of a command to DOUT: its bytes from offset 0, then DOUTLEN (20_memory.md R60, 10_state.md R37). -/
def State.putDout (s : State) (r : List Byte) : State :=
  { s.setBytes .dout 0 r with doutlen := BitVec.ofNat 32 r.length }

/-- Where a tag goes: its bytes from offset 0, zero bytes up to offset 15 (44_tag_engine.md R145, 10_state.md R29). -/
def State.putTag (s : State) (tag : List Byte) : State := s.setBytes .tag 0 (tag ++ zeros (16 - tag.length))

/-- `complete OK`, 60_exceptions.md R185. -/
def State.completeOk (s : State) : State := { s with status := statusAfter s.status 0#4 }

/-- `raise K()`, 60_exceptions.md R184: the code and DONE, DOUTLEN <- 0 when the command has DOUT among its outputs, and nothing
else. Nothing is saved, no mode changes and control goes nowhere. -/
def State.raise (s : State) (k : ErrorKind) (hasDout : Bool) : State :=
  { s with status := statusAfter s.status k.code, doutlen := if hasDout then 0#32 else s.doutlen }

end Sys2Proof.Machine
end

