-- ==== Sys2Proof/Machine/Operands.lean ====
section
/-! DEFINITION. The operands of commands: the byte strings they take from buffers (10_state.md R28), the validations they make
(30_encoding.md R90, 60_exceptions.md R181) and the shape every command's execution has (R91). -/

namespace Sys2Proof.Machine

/-! Operand strings -/

/-- MemRead(b+a, n) of 00_scope.md R10 as a byte string; a byte that holds no value stops the step (93 U1, log 5). -/
def State.bytesAt (s : State) (b : Buf) (a n : Nat) : Except Fault (List Byte) :=
  match (s.buf.get b).readBytes a n with
  | some v => .ok v
  | none => .error (.unwrittenByte b)

/-- The length register of an input buffer, 10_state.md R26; DOUT's is its result length and TAG has none. -/
def State.lenOf (s : State) : Buf → Word
  | .key => s.keylen
  | .iv => s.ivlen
  | .aad => s.aadlen
  | .din => s.dinlen
  | .dout => s.doutlen
  | .tag => 0#32

/-- Bytes(b, csr[L]), the operand a command takes from input buffer b, 10_state.md R28. -/
def State.operand (s : State) (b : Buf) : Except Fault (List Byte) := s.bytesAt b 0 (s.lenOf b).toNat

/-! Validations: a check is a condition that fails the command and the kind it raises -/

/-- One check: the kind is raised when the condition is true. -/
abbrev Check := Bool × ErrorKind

/-- The first check that fails, 30_encoding.md R91: "the first that fails raises its kind". -/
def firstFailure : List Check → Option ErrorKind
  | [] => none
  | (true, k) :: _ => some k
  | (false, _) :: cs => firstFailure cs

/-- Legal key lengths in bytes, 00_scope.md R6. -/
def legalKeyLen (n : Nat) : Bool := n == 16 || n == 24 || n == 32

/-- Legal tag lengths in bits, 00_scope.md R6. -/
def legalTagLen (t : Nat) : Bool := t == 96 || t == 104 || t == 112 || t == 120 || t == 128

/-- A length above a capacity; an empty operand fits every buffer. -/
def exceeds : Nat → Nat → Bool
  | 0, _ => false
  | n + 1, cap => decide (cap < n + 1)

/-- InvalidKeyLength, 60_exceptions.md R181. -/
def checkKey (s : State) : Check := (!legalKeyLen s.keylen.toNat, .invalidKeyLength)

/-- InvalidTagLength for TLEN, 60_exceptions.md R181. -/
def checkTag (tlen : Nat) : Check := (!legalTagLen tlen, .invalidTagLength)

/-- MalformedInput: `(8 * csr[IVLEN]) mod 8 != 0`, never true (42_counter.md R120). -/
def checkNonce (s : State) : Check := ((8 * s.ivlen.toNat) % 8 != 0, .malformedInput)

/-- OperandLength for an input buffer's length above its capacity, 60_exceptions.md R181. -/
def checkFits (p : Params) (s : State) (b : Buf) : Check :=
  (exceeds (s.lenOf b).toNat (capacity p b), .operandLength)

/-- OperandLength for a ragged GHASH input, 41_ghash.md R110. -/
def checkWholeBlocks (s : State) : Check := (s.dinlen.toNat % 16 != 0, .operandLength)

/-- InvalidTagLength for a Combined shorter than the tag, 45_aead_ops.md R155. -/
def checkCombined (s : State) (tlen : Nat) : Check := (decide (s.dinlen.toNat < tlen / 8), .invalidTagLength)

/-- VALIDATE of the four one-shot commands, 45_aead_ops.md R150. -/
def checksAead (p : Params) (s : State) (tlen : Nat) : List Check :=
  [checkKey s, checkTag tlen, checkNonce s, checkFits p s .iv, checkFits p s .aad, checkFits p s .din]

/-- The validations of each command in the order it makes them, 30_encoding.md R90, column "validates". -/
def checksOf (p : Params) (i : Instr) (s : State) : List Check :=
  match i with
  | .gfmul => []
  | .ghash => [checkFits p s .din, checkWholeBlocks s]
  | .derivej0 => [checkNonce s, checkFits p s .iv]
  | .inc32 => []
  | .gctr => [checkKey s, checkFits p s .din]
  | .derivecommon => [checkKey s, checkNonce s, checkFits p s .iv]
  | .computetag t => [checkKey s, checkTag t, checkFits p s .aad, checkFits p s .din]
  | .encrypt t => checksAead p s t
  | .decrypt t => checksAead p s t
  | .encryptappend t => checksAead p s t
  | .decryptappended t => checksAead p s t ++ [checkCombined s t]

/-- The commands that have DOUT among their outputs, 60_exceptions.md R184. -/
def hasDout : Instr → Bool
  | .gctr | .encrypt _ | .decrypt _ | .encryptappend _ | .decryptappended _ => true
  | .gfmul | .ghash | .derivej0 | .inc32 | .derivecommon | .computetag _ => false

/-- The shape of every command's execution after decoding, 30_encoding.md R91: the validations in order, the first that fails
raises its kind; then the body on the operands. -/
def runCommand {α : Type} (p : Params) (i : Instr) (operands : Except Fault α) (body : α → State) (s : State) : Result :=
  match firstFailure (checksOf p i s) with
  | some k => .next (s.raise k (hasDout i))
  | none =>
    match operands with
    | .ok x => .next (body x)
    | .error f => .fault f

end Sys2Proof.Machine
end

