-- ==== Sys2Proof/Machine/Multiplier.lean ====
section
/-! DEFINITION. The GF(2^128) multiplier and GFMUL (40_gf_multiplier.md). -/

namespace Sys2Proof.Machine

/-- The reduction constant R: 0xE1 followed by fifteen zero bytes, 40_gf_multiplier.md R100. -/
def reductionR : Block := 0xE1000000000000000000000000000000#128

/-- The multiplier's working registers Z and V, 10_state.md R32. -/
structure MulWork where
  z : Block
  v : Block
deriving DecidableEq, Repr

/-- V after one iteration: a logical right shift by one, then the XOR with R when the bit shifted out was 1,
40_gf_multiplier.md R101. -/
def mulShift (v : Block) : Block := if v.getLsbD 0 then (v >>> 1) ^^^ reductionR else v >>> 1

/-- One iteration on the bit of X it looks at: the conditional XOR uses V before the shift, 40_gf_multiplier.md R101. -/
def mulStep (xbit : Bool) (w : MulWork) : MulWork :=
  { z := if xbit then w.z ^^^ w.v else w.z, v := mulShift w.v }

/-- The last n iterations, which look at the bits X[n-1] down to X[0], 40_gf_multiplier.md R101. -/
def mulIter (x : Block) : Nat → MulWork → MulWork
  | 0, w => w
  | n + 1, w => mulIter x n (mulStep (x.getLsbD n) w)

/-- MUL(X, Y), 40_gf_multiplier.md R101: 128 iterations from Z = 0, V = Y. -/
def mul (x y : Block) : Block := (mulIter x 128 { z := 0#128, v := y }).z

/-- GFMUL, 40_gf_multiplier.md R102: MZ <- MUL(MX, MY). No validation, no error. -/
def execGfmul (s : State) : Result :=
  runCommand Config.params .gfmul (.ok (s.getBlk .mx, s.getBlk .my)) (fun o => (s.setBlk .mz (mul o.1 o.2)).completeOk) s

end Sys2Proof.Machine
end

