-- ==== Sys2Proof/Machine/Ghash.lean ====
section
/-! DEFINITION. The GHASH universal hash and the GHASH command (41_ghash.md). -/

namespace Sys2Proof.Machine

/-- One GHASH step: the XOR with the block, then the multiplication with H as the shifted operand, 41_ghash.md R111. -/
def ghashStep (h yacc x : Block) : Block := mul (yacc ^^^ x) h

/-- GHASH(H, s) on the list of whole blocks of s, from Y_0 = 0^128, 41_ghash.md R111 (93 U4: the block list is the argument, so a
ragged string cannot be given). -/
def ghash (h : Block) (xs : List Block) : Block := xs.foldl (ghashStep h) 0#128

/-- The GHASH command on an instance with parameters p, 41_ghash.md R112: GY <- GHASH(HK, DIN[0..DINLEN)). -/
def ghashOn (p : Params) (s : State) : Result :=
  runCommand p .ghash (s.operand .din)
    (fun x => (s.setBlk .gy (ghash (s.getBlk .hk) (wholeBlocks x))).completeOk) s

/-- GHASH, 41_ghash.md R112. -/
def execGhash (s : State) : Result := ghashOn Config.params s

end Sys2Proof.Machine
end

