-- ==== Sys2Proof/Machine/Counter.lean ====
section
/-! DEFINITION. The counter manager: the initial counter block and the 32-bit increment, with the commands DERIVEJ0 and INC32
(42_counter.md). -/

namespace Sys2Proof.Machine

/-- The string hashed for a nonce that is not 96 bits long: the nonce, zeros to a multiple of 128 bits, 64 more zero bits, the
64-bit bit-length, 42_counter.md R121 (90_conflicts.md C1, reading B). -/
def nonceString (iv : List Byte) : List Byte := pad128 iv ++ zeros 8 ++ be64 (bitlen iv)

/-- DERIVEJ0(H, iv), 42_counter.md R121. -/
def deriveJ0 (h : Block) (iv : List Byte) : Block :=
  if bitlen iv = 96 then blockOfBytes (iv ++ be32 1) else ghash h (wholeBlocks (nonceString iv))

/-- INC32(b): the low 32 bits plus 1 modulo 2^32, the upper 96 bits as they are, 42_counter.md R123. -/
def inc32 (b : Block) : Block := b.extractLsb' 32 96 ++ (b.extractLsb' 0 32 + 1#32)

/-- DERIVEJ0 on an instance with parameters p, 42_counter.md R122: J0 <- DERIVEJ0(HK, IV[0..IVLEN)). -/
def derivej0On (p : Params) (s : State) : Result :=
  runCommand p .derivej0 (s.operand .iv)
    (fun iv => (s.setBlk .j0 (deriveJ0 (s.getBlk .hk) iv)).completeOk) s

/-- DERIVEJ0, 42_counter.md R122. -/
def execDerivej0 (s : State) : Result := derivej0On Config.params s

/-- INC32, 42_counter.md R124: CB <- INC32(CB). No validation, no error, no wrap flag. -/
def execInc32 (s : State) : Result :=
  runCommand Config.params .inc32 (.ok (s.getBlk .cb)) (fun b => (s.setBlk .cb (inc32 b)).completeOk) s

end Sys2Proof.Machine
end

