-- ==== Sys2Proof/Machine/Gctr.lean ====
section
/-! DEFINITION. The counter-mode key stream and the GCTR command (43_gctr.md). A provider with its key applied is a function
`e : Block → Block` (50_block_cipher_port.md R170). -/

namespace Sys2Proof.Machine

/-- The loop of GCTR over the blocks still to do, from the running counter block CBi, 43_gctr.md R130, R131. The increment after
the last block is computed and dropped. -/
def gctrFrom (e : Block → Block) : Block → List (List Byte) → List Byte
  | _, [] => []
  | cbi, x :: xs => xorBytes x (truncate (e cbi) (bitlen x)) ++ gctrFrom e (inc32 cbi) xs

/-- GCTR(key, icb, s), 43_gctr.md R131. -/
def gctr (e : Block → Block) (icb : Block) (s : List Byte) : List Byte := gctrFrom e icb (cut s)

/-- The operands of GCTR in KEY and DIN, 43_gctr.md R133. -/
structure GctrOperands where
  key : List Byte
  din : List Byte

/-- Read GCTR's buffer operands. -/
def gctrOperands (s : State) : Except Fault GctrOperands := do
  let key ← s.operand .key
  let din ← s.operand .din
  return { key := key, din := din }

/-- GCTR on an instance with parameters p, 43_gctr.md R133: DOUT <- GCTR(KEY, CB, DIN), DOUTLEN <- DINLEN; CB is not written. -/
def gctrOn (p : Params) (s : State) : Result :=
  runCommand p .gctr (gctrOperands s)
    (fun o => (s.putDout (gctr (p.cipher o.key) (s.getBlk .cb) o.din)).completeOk) s

/-- GCTR, 43_gctr.md R133. -/
def execGctr (s : State) : Result := gctrOn Config.params s

end Sys2Proof.Machine
end

