-- ==== Sys2Proof/Machine/TagEngine.lean ====
section
/-! DEFINITION. The tag engine: the hash subkey, the hashed string and the tag, with the commands DERIVECOMMON and COMPUTETAG
(44_tag_engine.md). -/

namespace Sys2Proof.Machine

/-- H = E(key, 0^128), 44_tag_engine.md R140. -/
def hashSubkey (e : Block → Block) : Block := e 0#128

/-- TAGSTRING(A, C), 44_tag_engine.md R142. -/
def tagString (a c : List Byte) : List Byte := pad128 a ++ pad128 c ++ be64 (bitlen a) ++ be64 (bitlen c)

/-- COMPUTETAG(key, H, J0, A, C, t), 44_tag_engine.md R143: one GCTR block from J0 itself, then the leading t/8 bytes. -/
def computeTag (e : Block → Block) (h j0 : Block) (a c : List Byte) (t : Nat) : List Byte :=
  truncate (blockOfBytes (gctr e j0 (bytesOfBlock (ghash h (wholeBlocks (tagString a c)))))) t

/-- The operands of DERIVECOMMON in KEY and IV, 44_tag_engine.md R141. -/
structure DeriveOperands where
  key : List Byte
  iv  : List Byte

/-- Read DERIVECOMMON's buffer operands; the AAD is not among them (R140). -/
def deriveOperands (s : State) : Except Fault DeriveOperands := do
  let key ← s.operand .key
  let iv ← s.operand .iv
  return { key := key, iv := iv }

/-- DERIVECOMMON on an instance with parameters p, 44_tag_engine.md R141: HK <- E(KEY, 0^128), J0 <- DERIVEJ0(HK, IV). -/
def derivecommonOn (p : Params) (s : State) : Result :=
  runCommand p .derivecommon (deriveOperands s)
    (fun o =>
      let h := hashSubkey (p.cipher o.key)
      ((s.setBlk .hk h).setBlk .j0 (deriveJ0 h o.iv)).completeOk) s

/-- DERIVECOMMON, 44_tag_engine.md R141. -/
def execDerivecommon (s : State) : Result := derivecommonOn Config.params s

/-- The operands of COMPUTETAG in KEY, AAD and DIN, 44_tag_engine.md R144. -/
structure TagOperands where
  key : List Byte
  aad : List Byte
  din : List Byte

/-- Read COMPUTETAG's buffer operands. -/
def tagOperands (s : State) : Except Fault TagOperands := do
  let key ← s.operand .key
  let aad ← s.operand .aad
  let din ← s.operand .din
  return { key := key, aad := aad, din := din }

/-- COMPUTETAG on an instance with parameters p, 44_tag_engine.md R144: the tag over AAD and DIN under the H and J0 of HK and J0,
to TAG; DOUT and DOUTLEN are not written. -/
def computetagOn (p : Params) (tlen : Nat) (s : State) : Result :=
  runCommand p (.computetag tlen) (tagOperands s)
    (fun o => (s.putTag (computeTag (p.cipher o.key) (s.getBlk .hk) (s.getBlk .j0) o.aad o.din tlen)).completeOk) s

/-- COMPUTETAG, 44_tag_engine.md R144. -/
def execComputetag (tlen : Nat) (s : State) : Result := computetagOn Config.params tlen s

end Sys2Proof.Machine
end

