-- ==== Sys2Proof/Machine/Aead.lean ====
section
/-! DEFINITION. The four one-shot commands ENCRYPT, DECRYPT, ENCRYPTAPPEND and DECRYPTAPPENDED (45_aead_ops.md). They derive H and J0
into working values and touch no block register (10_state.md R21). -/

namespace Sys2Proof.Machine

/-- The operands of the one-shot commands in KEY, IV, AAD and DIN, 45_aead_ops.md R151 to R155. -/
structure AeadOperands where
  key : List Byte
  iv  : List Byte
  aad : List Byte
  din : List Byte

/-- Read the one-shot commands' buffer operands. -/
def aeadOperands (s : State) : Except Fault AeadOperands := do
  let key ← s.operand .key
  let iv ← s.operand .iv
  let aad ← s.operand .aad
  let din ← s.operand .din
  return { key := key, iv := iv, aad := aad, din := din }

/-- J0int of DERIVE: the initial counter block under the derived H, 45_aead_ops.md R158. -/
def deriveJ0int (e : Block → Block) (iv : List Byte) : Block := deriveJ0 (hashSubkey e) iv

/-- The data key stream applied to s: it starts one counter past J0, 45_aead_ops.md R151 step 3, R152 step 5. -/
def cryptData (e : Block → Block) (iv s : List Byte) : List Byte := gctr e (inc32 (deriveJ0int e iv)) s

/-- The tag of ciphertext c, 45_aead_ops.md R151 step 4, R152 step 3. -/
def expectedTag (e : Block → Block) (iv aad c : List Byte) (t : Nat) : List Byte :=
  computeTag e (hashSubkey e) (deriveJ0int e iv) aad c t

/-- DIFF of TAGEQ: the OR of the byte differences, every byte, 45_aead_ops.md R153. -/
def tagDiff (a b : List Byte) : Byte := (xorBytes a b).foldl (· ||| ·) 0#8

/-- TAGEQ(a, b), 45_aead_ops.md R153. -/
def tagEq (a b : List Byte) : Bool := tagDiff a b == 0#8

/-- ENCRYPT on an instance with parameters p, 45_aead_ops.md R151: the ciphertext to DOUT, the tag over it to TAG. -/
def encryptOn (p : Params) (tlen : Nat) (s : State) : Result :=
  runCommand p (.encrypt tlen) (aeadOperands s)
    (fun o =>
      let e := p.cipher o.key
      let c := cryptData e o.iv o.din
      ((s.putDout c).putTag (expectedTag e o.iv o.aad c tlen)).completeOk) s

/-- ENCRYPT, 45_aead_ops.md R151. -/
def execEncrypt (tlen : Nat) (s : State) : Result := encryptOn Config.params tlen s

/-- Steps 3 to 5 of decryption: the expected tag is compared with the supplied one first, and only a match decrypts
(45_aead_ops.md R152, R157). -/
def verifyAndDecrypt (s : State) (e : Block → Block) (iv aad c tag : List Byte) (tlen : Nat) : State :=
  if tagEq (expectedTag e iv aad c tlen) tag then (s.putDout (cryptData e iv c)).completeOk
  else s.raise .authenticationFailure true

/-- The operands of DECRYPT: those of the one-shot commands and the leading TLEN/8 bytes of TAG, 45_aead_ops.md R152. -/
def decryptOperands (tlen : Nat) (s : State) : Except Fault (AeadOperands × List Byte) := do
  let o ← aeadOperands s
  let tag ← s.bytesAt .tag 0 (tlen / 8)
  return (o, tag)

/-- DECRYPT on an instance with parameters p, 45_aead_ops.md R152. -/
def decryptOn (p : Params) (tlen : Nat) (s : State) : Result :=
  runCommand p (.decrypt tlen) (decryptOperands tlen s)
    (fun o => verifyAndDecrypt s (p.cipher o.1.key) o.1.iv o.1.aad o.1.din o.2 tlen) s

/-- DECRYPT, 45_aead_ops.md R152. -/
def execDecrypt (tlen : Nat) (s : State) : Result := decryptOn Config.params tlen s

/-- ENCRYPTAPPEND on an instance with parameters p, 45_aead_ops.md R154: C ‖ Tag to DOUT; TAG is not written. -/
def encryptappendOn (p : Params) (tlen : Nat) (s : State) : Result :=
  runCommand p (.encryptappend tlen) (aeadOperands s)
    (fun o =>
      let e := p.cipher o.key
      let c := cryptData e o.iv o.din
      (s.putDout (c ++ expectedTag e o.iv o.aad c tlen)).completeOk) s

/-- ENCRYPTAPPEND, 45_aead_ops.md R154. -/
def execEncryptappend (tlen : Nat) (s : State) : Result := encryptappendOn Config.params tlen s

/-- DECRYPTAPPENDED on an instance with parameters p, 45_aead_ops.md R155: DIN is split before its last TLEN/8 bytes into C and
Tag; TAG is neither read nor written. -/
def decryptappendedOn (p : Params) (tlen : Nat) (s : State) : Result :=
  runCommand p (.decryptappended tlen) (aeadOperands s)
    (fun o =>
      let clen := o.din.length - tlen / 8
      verifyAndDecrypt s (p.cipher o.key) o.iv o.aad (o.din.take clen) (o.din.drop clen) tlen) s

/-- DECRYPTAPPENDED, 45_aead_ops.md R155. -/
def execDecryptappended (tlen : Nat) (s : State) : Result := decryptappendedOn Config.params tlen s

end Sys2Proof.Machine
end

