-- ==== Sys2Proof/Machine/Dispatch.lean ====
section
/-! DEFINITION. The meaning of every command, one arm for each row of the opcode map (30_encoding.md R83, R91). -/

namespace Sys2Proof.Machine

def exec (i : Instr) (s : State) : Host.Outcome State Fault Refusal :=
  match i with
  | .gfmul => Sys2Proof.Machine.execGfmul s
  | .ghash => Sys2Proof.Machine.execGhash s
  | .derivej0 => Sys2Proof.Machine.execDerivej0 s
  | .inc32 => Sys2Proof.Machine.execInc32 s
  | .gctr => Sys2Proof.Machine.execGctr s
  | .derivecommon => Sys2Proof.Machine.execDerivecommon s
  | .computetag tlen => Sys2Proof.Machine.execComputetag tlen s
  | .encrypt tlen => Sys2Proof.Machine.execEncrypt tlen s
  | .decrypt tlen => Sys2Proof.Machine.execDecrypt tlen s
  | .encryptappend tlen => Sys2Proof.Machine.execEncryptappend tlen s
  | .decryptappended tlen => Sys2Proof.Machine.execDecryptappended tlen s

end Sys2Proof.Machine
end

