-- ==== Sys2Proof/Machine/HostMoves.lean ====
section
/-! DEFINITION. What the outside world does to the machine: issuing a command word (30_encoding.md R80, R91), the host's six moves
(20_memory.md R54) and reset (70_reset_and_hazards.md R200). -/

namespace Sys2Proof.Machine

/-- CsrWrite(0, w): a legal word runs its command; any other completes with IllegalCommand and has no other effect
(30_encoding.md R84, R85, R91). -/
def issue (w : Word) (s : State) : Result :=
  match decode w with
  | .ok i => exec i s
  | .error _ => .next (s.raise .illegalCommand false)

/-- Hand a read value to the host; the machine itself is unchanged (20_memory.md R57). -/
def State.answer (s : State) (a : Answer) : State := { s with answers := a :: s.answers }

/-- BufRead(b, a), 20_memory.md R54: an offset at or above the capacity names no location (93 U2), a byte that holds no value has
no answer (93 U1). -/
def hostBufRead (b : Buf) (a : Nat) (s : State) : Result :=
  if a < capacity Config.params b then
    match s.byte b a with
    | some v => .next (s.answer (.byte v))
    | none => .fault (.unwrittenByte b)
  else .fault (.noSuchLocation b a)

/-- BufWrite(b, a, v), 20_memory.md R54: a write to DOUT has no effect (10_state.md R26). -/
def hostBufWrite (b : Buf) (a : Nat) (v : Byte) (s : State) : Result :=
  if a < capacity Config.params b then
    match b with
    | .dout => .next s
    | _ => .next (s.setByte b a v)
  else .fault (.noSuchLocation b a)

/-- One host move, 20_memory.md R54. -/
def hostMove (m : HostMove) (s : State) : Result :=
  match m with
  | .csrRead n => .next (s.answer (.csr (s.csr n)))
  | .csrWrite 0 w => issue w s
  | .csrWrite (n + 1) v => .next (s.setCsr (n + 1) v)
  | .blkRead r => .next (s.answer (.blk (s.getBlk r)))
  | .blkWrite r v => .next (s.setBlk r v)
  | .bufRead b a => hostBufRead b a s
  | .bufWrite b a v => hostBufWrite b a v s

/-- Reset between commands: every piece of the spec's state at its reset value, with fresh free values; what the host still wants
to do and what it has read are the host's (70_reset_and_hazards.md R200, log 8). -/
def applyReset (s : State) : State :=
  { State.afterReset (s.resets + 1) with pending := s.pending, answers := s.answers }

/-- One input. -/
def applyInput (x : Input) (s : State) : Result :=
  match x with
  | .move m => hostMove m s
  | .reset => .next (applyReset s)

end Sys2Proof.Machine
end

