-- ==== Sys2Proof/Machine/Step.lean ====
section
/-! DEFINITION. One step of the machine: the next input takes its whole effect (00_scope.md R13, 20_memory.md R62). There is no program
counter and no fetch (10_state.md R30); the next command word is the one the host writes to CMD. -/

namespace Sys2Proof.Machine

/-- One step. With no input waiting the engine waits for the host and nothing changes (70_reset_and_hazards.md R201, log 2). -/
def step (s : State) : Host.Outcome State Fault Refusal :=
  match s.pending with
  | [] => .next s
  | x :: rest => applyInput x { s with pending := rest }

/-- The state in which the host's next move writes the command word w, its bits from `nbits` on zero, to CMD (30_encoding.md R80,
log 15). -/
def State.withFetchWord (s : State) (nbits w : Nat) : State :=
  { s with pending := .move (.csrWrite 0 (BitVec.ofNat 32 (w % 2 ^ nbits))) :: s.pending }

end Sys2Proof.Machine
end

