-- ==== Sys2Proof/Machine/Port.lean ====
section
/-! DEFINITION. The block-cipher provider port (50_block_cipher_port.md): the calls each command makes, as a function of the state, and
the commands on an instance with any parameters. The calls are not observable (R171) and no command reads this list (log 11). -/

namespace Sys2Proof.Machine

/-- One request on the port: the key bytes as they stand in KEY, and a block to encrypt; there is no decrypt request
(50_block_cipher_port.md R170, R172). -/
structure PortCall where
  key   : List Byte
  block : Block
deriving DecidableEq, Repr

/-- CB_1 .. CB_n from an initial counter block, 43_gctr.md R130. -/
def counterBlocks : Block → Nat → List Block
  | _, 0 => []
  | icb, n + 1 => icb :: counterBlocks (inc32 icb) n

/-- ceil(L/16) for a string of L bytes, 20_memory.md R59. -/
def blockCount (s : List Byte) : Nat := (s.length + 15) / 16

/-- The counter blocks one GCTR run over s asks for, 50_block_cipher_port.md R175. -/
def gctrCalls (icb : Block) (s : List Byte) : List Block := counterBlocks icb (blockCount s)

/-- The blocks ENCRYPT and ENCRYPTAPPEND ask for, in pseudocode order, 50_block_cipher_port.md R175. -/
def sealCalls (e : Block → Block) (iv s : List Byte) : List Block :=
  0#128 :: gctrCalls (inc32 (deriveJ0int e iv)) s ++ [deriveJ0int e iv]

/-- The blocks DECRYPT and DECRYPTAPPENDED ask for: on a mismatch GCTR does not run, 50_block_cipher_port.md R175,
45_aead_ops.md R157. -/
def openCalls (e : Block → Block) (iv aad c tag : List Byte) (tlen : Nat) : List Block :=
  [0#128, deriveJ0int e iv] ++
    (if tagEq (expectedTag e iv aad c tlen) tag then gctrCalls (inc32 (deriveJ0int e iv)) c else [])

/-- The calls of a command that passes its validations with operands x; none when a validation fails
(50_block_cipher_port.md R175, last row). -/
def callsAfterChecks {α : Type} (p : Params) (i : Instr) (operands : Except Fault α) (key : α → List Byte)
    (blocks : α → List Block) (s : State) : List PortCall :=
  match firstFailure (checksOf p i s), operands with
  | none, .ok x => (blocks x).map fun b => { key := key x, block := b }
  | _, _ => []

/-- The calls each command makes, all with the command's own key, 50_block_cipher_port.md R175. -/
def portCalls (p : Params) (i : Instr) (s : State) : List PortCall :=
  match i with
  | .gfmul | .ghash | .derivej0 | .inc32 => []
  | .gctr => callsAfterChecks p i (gctrOperands s) (·.key) (fun o => gctrCalls (s.getBlk .cb) o.din) s
  | .derivecommon => callsAfterChecks p i (deriveOperands s) (·.key) (fun _ => [0#128]) s
  | .computetag _ => callsAfterChecks p i (tagOperands s) (·.key) (fun _ => [s.getBlk .j0]) s
  | .encrypt _ | .encryptappend _ =>
    callsAfterChecks p i (aeadOperands s) (·.key) (fun o => sealCalls (p.cipher o.key) o.iv o.din) s
  | .decrypt t =>
    callsAfterChecks p i (decryptOperands t s) (·.1.key)
      (fun o => openCalls (p.cipher o.1.key) o.1.iv o.1.aad o.1.din o.2 t) s
  | .decryptappended t =>
    callsAfterChecks p i (aeadOperands s) (·.key)
      (fun o => openCalls (p.cipher o.key) o.iv o.aad (o.din.take (o.din.length - t / 8))
        (o.din.drop (o.din.length - t / 8)) t) s

/-- A command on an instance with parameters p, 00_scope.md R7; exec is this on the instance's own parameters. -/
def execOn (p : Params) (i : Instr) (s : State) : Result :=
  match i with
  | .gfmul => execGfmul s
  | .ghash => ghashOn p s
  | .derivej0 => derivej0On p s
  | .inc32 => execInc32 s
  | .gctr => gctrOn p s
  | .derivecommon => derivecommonOn p s
  | .computetag t => computetagOn p t s
  | .encrypt t => encryptOn p t s
  | .decrypt t => decryptOn p t s
  | .encryptappend t => encryptappendOn p t s
  | .decryptappended t => decryptappendedOn p t s

end Sys2Proof.Machine
end

