-- ==== Sys2Proof/Machine/Script.lean ====
section
/-! DEFINITION. The notation for host scripts as data: each line is one host move (30_encoding.md R88), and each pseudo-instruction
expands to lines (R89). -/

namespace Sys2Proof.Machine

/-- A line of a host script, 30_encoding.md R88; csrw and csrr name a register by its index, a command stands by itself. -/
inductive Line where
  | csrw (n : Nat) (v : Word)
  | csrr (n : Nat)
  | blkw (r : BlkReg) (v : Block)
  | blkr (r : BlkReg)
  | bufw (b : Buf) (a : Nat) (v : Byte)
  | bufr (b : Buf) (a : Nat)
  | command (i : Instr)
deriving DecidableEq, Repr

/-- The host move of a line, 30_encoding.md R88: a mnemonic is a write of its command word to CMD. -/
def Line.move : Line → HostMove
  | .csrw n v => .csrWrite n v
  | .csrr n => .csrRead n
  | .blkw r v => .blkWrite r v
  | .blkr r => .blkRead r
  | .bufw b a v => .bufWrite b a v
  | .bufr b a => .bufRead b a
  | .command i => .csrWrite 0 (encode i)

/-- The CSR that holds a buffer's length, 10_state.md R26; TAG has none. -/
def lenCsr : Buf → Option Nat
  | .key => some 2
  | .iv => some 3
  | .aad => some 4
  | .din => some 5
  | .dout => some 6
  | .tag => none

/-- `bufw BUF, j, byte_j` for each byte of the string in order, from offset j. -/
def bufwLines (b : Buf) : Nat → List Byte → List Line
  | _, [] => []
  | j, v :: vs => .bufw b j v :: bufwLines b (j + 1) vs

/-- `load BUF, hexstring`, BUF one of KEY, IV, AAD, DIN, TAG, 30_encoding.md R89: the bytes, then the length (none for TAG). -/
def loadLines (b : Buf) (v : List Byte) : List Line :=
  bufwLines b 0 v ++
    match lenCsr b with
    | some n => [.csrw n (BitVec.ofNat 32 v.length)]
    | none => []

/-- `bufr BUF, j` for j below n. -/
def bufrLines (b : Buf) (n : Nat) : List Line := (List.range n).map (.bufr b)

/-- `read DOUT` when the value of DOUTLEN read first is n, 30_encoding.md R89. -/
def readDoutLines (n : Nat) : List Line := .csrr 6 :: bufrLines .dout n

/-- `read TAG, t`, 30_encoding.md R89. -/
def readTagLines (t : Nat) : List Line := bufrLines .tag (t / 8)

/-- The bare mnemonic ENCRYPT is `ENCRYPT 128`, 30_encoding.md R89. -/
def encryptDefault : Instr := .encrypt 128

/-- The bare mnemonic ENCRYPTAPPEND is `ENCRYPTAPPEND 128`, 30_encoding.md R89. -/
def encryptappendDefault : Instr := .encryptappend 128

/-- The bare mnemonic DECRYPTAPPENDED is `DECRYPTAPPENDED 128`, 30_encoding.md R89. -/
def decryptappendedDefault : Instr := .decryptappended 128

/-- The host makes the moves of a script, after those it had in mind already. -/
def State.withScript (s : State) (ls : List Line) : State :=
  { s with pending := s.pending ++ ls.map fun l => .move l.move }

end Sys2Proof.Machine
end

