-- ==== Sys2Proof/Safety.lean ====
section
/-! DEFINITION. The terms the claims are written in: what a buffer holds, how a command completes, what it leaves unchanged, which
locations it reads and writes (10_state.md R21, 30_encoding.md R90), which error it reports (60_exceptions.md R181, R183), and the
machine's invariant. -/

namespace Sys2Proof.Machine

/-! The multiplier's operand after k steps -/

/-- The blocks V_k of 40_gf_multiplier.md R104 (a): V_0 = Y, and each next one is one shift step. -/
def shiftedY (y : Block) (k : Nat) : Block := mulShift^[k] y

/-! What a buffer holds -/

/-- The byte string v stands in buffer b from offset a on. -/
def Holds (s : State) (b : Buf) (a : Nat) (v : List Byte) : Prop :=
  ∀ j (h : j < v.length), s.byte b (a + j) = some v[j]

/-- v is the operand in input buffer b: as long as the length register says, from offset 0 (10_state.md R28). -/
def HoldsOperand (s : State) (b : Buf) (v : List Byte) : Prop := v.length = (s.lenOf b).toNat ∧ Holds s b 0 v

/-- v is the result in DOUT: as long as DOUTLEN says, from offset 0 (10_state.md R37). -/
def HoldsResult (s : State) (v : List Byte) : Prop := s.doutlen.toNat = v.length ∧ Holds s .dout 0 v

/-- TAG holds a tag and zero bytes after it up to offset 15 (44_tag_engine.md R145). -/
def HoldsTag (s : State) (tag : List Byte) : Prop :=
  Holds s .tag 0 tag ∧ ∀ a, tag.length ≤ a → a < 16 → s.byte .tag a = some 0#8

/-! Completion and frame -/

/-- From s to t a command completed with code c: CODE is c, DONE is 1, the reserved bits of STATUS are as before
(60_exceptions.md R184, R185). -/
def Completed (s t : State) (c : BitVec 4) : Prop :=
  t.code = c ∧ t.done = true ∧ statusReserved t.status = statusReserved s.status

/-- Every block register but those named is unchanged. -/
def KeepsBlks (s t : State) (except : List BlkReg) : Prop := ∀ r, r ∉ except → t.getBlk r = s.getBlk r

/-- Every CSR but those named, by index, reads as before. -/
def KeepsCsrs (s t : State) (except : List Nat) : Prop := ∀ n, n ∉ except → t.csr n = s.csr n

/-- Every byte of every buffer but those named reads as before. -/
def KeepsBytes (s t : State) (except : Buf → Nat → Prop) : Prop := ∀ b a, ¬ except b a → t.byte b a = s.byte b a

/-- The host's side of the state is unchanged: its moves to come, the values it has read, the count of resets. -/
def KeepsHost (s t : State) : Prop := t.pending = s.pending ∧ t.answers = s.answers ∧ t.resets = s.resets

/-- No byte at all. -/
def noBytes (_ : Buf) (_ : Nat) : Prop := False

/-- The first n bytes of DOUT. -/
def doutBelow (n : Nat) (b : Buf) (a : Nat) : Prop := b = .dout ∧ a < n

/-- The sixteen bytes of TAG. -/
def allOfTag (b : Buf) (a : Nat) : Prop := b = .tag ∧ a < 16

/-- Nothing but the block registers, CSRs and bytes named differs between s and t. -/
def Frame (s t : State) (blks : List BlkReg) (csrs : List Nat) (bytes : Buf → Nat → Prop) : Prop :=
  KeepsBlks s t blks ∧ KeepsCsrs s t csrs ∧ KeepsBytes s t bytes ∧ KeepsHost s t

/-- A command ended with error code c as `raise` says: STATUS, and DOUTLEN <- 0 when `dout`, and nothing else
(60_exceptions.md R184). -/
def Raised (s t : State) (c : BitVec 4) (dout : Bool) : Prop :=
  Completed s t c ∧ t.doutlen = (if dout then 0#32 else s.doutlen) ∧ Frame s t [] [1, 6] noBytes

/-! What each command reads and writes: 10_state.md R21, 30_encoding.md R90 -/

/-- Commands that read KEY and call E, 60_exceptions.md R181. -/
def usesKey : Instr → Bool
  | .gfmul | .ghash | .derivej0 | .inc32 => false
  | .gctr | .derivecommon | .computetag _ | .encrypt _ | .decrypt _ | .encryptappend _ | .decryptappended _ => true

/-- Commands that take a nonce, 60_exceptions.md R181. -/
def usesIv : Instr → Bool
  | .derivej0 | .derivecommon | .encrypt _ | .decrypt _ | .encryptappend _ | .decryptappended _ => true
  | .gfmul | .ghash | .inc32 | .gctr | .computetag _ => false

/-- Commands that read AAD, 30_encoding.md R90. -/
def usesAad : Instr → Bool
  | .computetag _ | .encrypt _ | .decrypt _ | .encryptappend _ | .decryptappended _ => true
  | .gfmul | .ghash | .derivej0 | .inc32 | .gctr | .derivecommon => false

/-- Commands that read DIN, 30_encoding.md R90. -/
def usesDin : Instr → Bool
  | .ghash | .gctr | .computetag _ | .encrypt _ | .decrypt _ | .encryptappend _ | .decryptappended _ => true
  | .gfmul | .derivej0 | .inc32 | .derivecommon => false

/-- Commands that have a TLEN, 60_exceptions.md R181. -/
def usesTlen : Instr → Bool
  | .computetag _ | .encrypt _ | .decrypt _ | .encryptappend _ | .decryptappended _ => true
  | .gfmul | .ghash | .derivej0 | .inc32 | .gctr | .derivecommon => false

/-- Commands that write TAG, 30_encoding.md R90. -/
def writesTag : Instr → Bool
  | .computetag _ | .encrypt _ => true
  | .gfmul | .ghash | .derivej0 | .inc32 | .gctr | .derivecommon | .decrypt _ | .encryptappend _ | .decryptappended _ =>
    false

/-- The block registers a command reads, 10_state.md R21. -/
def blkReads : Instr → List BlkReg
  | .gfmul => [.mx, .my]
  | .ghash => [.hk]
  | .derivej0 => [.hk]
  | .inc32 => [.cb]
  | .gctr => [.cb]
  | .computetag _ => [.hk, .j0]
  | .derivecommon | .encrypt _ | .decrypt _ | .encryptappend _ | .decryptappended _ => []

/-- The block registers a command writes, 10_state.md R21. -/
def blkWrites : Instr → List BlkReg
  | .gfmul => [.mz]
  | .ghash => [.gy]
  | .derivej0 => [.j0]
  | .inc32 => [.cb]
  | .derivecommon => [.hk, .j0]
  | .gctr | .computetag _ | .encrypt _ | .decrypt _ | .encryptappend _ | .decryptappended _ => []

/-- The bytes a command reads once its validations have passed, 30_encoding.md R90; DECRYPT reads the leading TLEN/8 bytes of
TAG. -/
def readsByte (i : Instr) (s : State) (b : Buf) (a : Nat) : Prop :=
  match b with
  | .key => usesKey i = true ∧ a < s.keylen.toNat
  | .iv => usesIv i = true ∧ a < s.ivlen.toNat
  | .aad => usesAad i = true ∧ a < s.aadlen.toNat
  | .din => usesDin i = true ∧ a < s.dinlen.toNat
  | .dout => False
  | .tag => ∃ t, i = .decrypt t ∧ a < t / 8

/-- The bytes a command may write, 30_encoding.md R90. -/
def writesByte (i : Instr) (b : Buf) : Prop :=
  match b with
  | .key | .iv | .aad | .din => False
  | .dout => hasDout i = true
  | .tag => writesTag i = true

/-- Two states agree on everything a command reads: its block registers, its length registers and its operand bytes
(30_encoding.md R90). -/
def SameInputs (i : Instr) (s s' : State) : Prop :=
  (∀ r, r ∈ blkReads i → s'.getBlk r = s.getBlk r) ∧
  (usesKey i = true → s'.keylen = s.keylen) ∧ (usesIv i = true → s'.ivlen = s.ivlen) ∧
  (usesAad i = true → s'.aadlen = s.aadlen) ∧ (usesDin i = true → s'.dinlen = s.dinlen) ∧
  ∀ b a, readsByte i s b a → s'.byte b a = s.byte b a

/-- Two completions of a command say and leave the same: the same code, the same DOUTLEN, and after OK the same values in
everything the command writes (30_encoding.md R90). -/
def SameResults (i : Instr) (t t' : State) : Prop :=
  t'.code = t.code ∧ t'.done = t.done ∧ (hasDout i = true → t'.doutlen = t.doutlen) ∧
  (t.code = 0#4 →
    (∀ r, r ∈ blkWrites i → t'.getBlk r = t.getBlk r) ∧
    (hasDout i = true → ∀ a, a < t.doutlen.toNat → t'.byte .dout a = t.byte .dout a) ∧
    (writesTag i = true → ∀ a, a < 16 → t'.byte .tag a = t.byte .tag a))

/-! Which error a command reports -/

/-- InvalidKeyLength's cause, 60_exceptions.md R181. -/
abbrev badKey (i : Instr) (s : State) : Prop := usesKey i = true ∧ s.keylen.toNat ∉ [16, 24, 32]

/-- InvalidTagLength's first cause, 60_exceptions.md R181. -/
abbrev badTlen (i : Instr) : Prop := usesTlen i = true ∧ i.tlen ∉ [96, 104, 112, 120, 128]

/-- OperandLength's causes, 60_exceptions.md R181. -/
abbrev badOperand (i : Instr) (s : State) : Prop :=
  (usesIv i = true ∧ Config.capIv < s.ivlen.toNat) ∨ (usesAad i = true ∧ Config.capAad < s.aadlen.toNat) ∨
    (usesDin i = true ∧ Config.capDin < s.dinlen.toNat) ∨ (i = .ghash ∧ s.dinlen.toNat % 16 ≠ 0)

/-- InvalidTagLength's second cause, a Combined shorter than the tag, 60_exceptions.md R181. -/
abbrev shortCombined (i : Instr) (s : State) : Prop :=
  i = .decryptappended i.tlen ∧ s.dinlen.toNat < i.tlen / 8

/-- The code a decoded command reports for its validations, positions 2 to 6 of the priority list; none when all pass
(60_exceptions.md R183). -/
def validationCode (i : Instr) (s : State) : Option (BitVec 4) :=
  if badKey i s then some 1#4
  else if badTlen i then some 2#4
  else if badOperand i s then some 6#4
  else if shortCombined i s then some 2#4
  else none

/-- Whenever a validation of the command fails, it ends as `raise` says with the first failing one's code, before any provider call
(60_exceptions.md R183, R184). -/
def RaisesItsErrors (i : Instr) : Prop :=
  ∀ s c, validationCode i s = some c →
    ∃ t, exec i s = .next t ∧ Raised s t c (hasDout i) ∧ portCalls Config.params i s = []

/-! When the one-shot commands run -/

/-- The one-shot commands' operands are in the buffers, are legal and fit (45_aead_ops.md R150, 70_reset_and_hazards.md R202). -/
structure AeadReady (s : State) (tlen : Nat) (key iv aad din : List Byte) : Prop where
  keyHeld  : HoldsOperand s .key key
  ivHeld   : HoldsOperand s .iv iv
  aadHeld  : HoldsOperand s .aad aad
  dinHeld  : HoldsOperand s .din din
  keyLegal : key.length ∈ [16, 24, 32]
  tagLegal : tlen ∈ [96, 104, 112, 120, 128]
  ivFits   : iv.length ≤ Config.capIv
  aadFits  : aad.length ≤ Config.capAad
  dinFits  : din.length ≤ Config.capDin

/-- A provider, with its key applied, has the three values that vector S2 of 95_test_vectors.md lists for the all-zero key; they are
the values the worked examples of the rules rest on. -/
def VectorPairs (e : Block → Block) : Prop :=
  e 0#128 = 0x66e94bd4ef8a2c3b884cfa59ca342b2e#128 ∧ e 1#128 = 0x58e2fccefa7e3061367f1d57a4e7455a#128 ∧
    e 2#128 = 0x0388dace60b6a392f328c2b971b2fe78#128

/-! The invariant -/

/-- What every reachable state satisfies: buffers in canonical form and inside their capacities; STATUS with reserved bits 0, a
code the spec produces (10_state.md R25; code 4 never, 60_exceptions.md R181), and code 0 until a command has completed; every
byte of the result DOUTLEN speaks of holds a value (10_state.md R37). -/
structure State.Inv (s : State) : Prop where
  wf       : ∀ b, Memory.wf (s.buf.get b)
  inside   : ∀ b a, capacity Config.params b ≤ a → s.byte b a = none
  reserved : statusReserved s.status = 0#32
  code     : s.code ∈ [0#4, 1#4, 2#4, 3#4, 5#4, 6#4]
  idle     : s.done = false → s.code = 0#4
  result   : ∀ a, a < s.doutlen.toNat → s.byte .dout a ≠ none

end Sys2Proof.Machine
end

