-- ==== Sys2Proof/Certificates/Slice0/Obligations.lean ====
section
/-! DEFINITION. The statements for the provers. Each docstring names the rule of spec/ it formalises; a clause that rests on a choice of
the model names its log entry. -/

open Sys2Proof Sys2Proof.Machine

/-! Encoding -/

/-- 95_test_vectors.md section 9: words written out from the encoding of 30_encoding.md R83, one for each command, and illegal
ones. -/
def Obligations.WordsOfTheSpecDecode : Prop :=
  decode 0x00000001#32 = .ok .gfmul ∧ decode 0x00000002#32 = .ok .ghash ∧ decode 0x00000003#32 = .ok .derivej0 ∧
  decode 0x00000004#32 = .ok .inc32 ∧ decode 0x00000005#32 = .ok .gctr ∧ decode 0x00000006#32 = .ok .derivecommon ∧
  decode 0x00008007#32 = .ok (.computetag 128) ∧ decode 0x00006008#32 = .ok (.encrypt 96) ∧
  decode 0x00007809#32 = .ok (.decrypt 120) ∧ decode 0x0000680A#32 = .ok (.encryptappend 104) ∧
  decode 0x0000700B#32 = .ok (.decryptappended 112) ∧ decode 0x0000FF08#32 = .ok (.encrypt 255) ∧
  ∀ w ∈ [0x00000000#32, 0x0000000C#32, 0x000000FF#32, 0x00000106#32, 0x00010008#32, 0x80000001#32, 0xFFFFFFFF#32],
    ∀ i, decode w ≠ .ok i

/-- 30_encoding.md R84, line by line, on the numeric fields of the word. -/
def Obligations.DecodeFollowsItsLines : Prop :=
  ∀ (w : Word) (reserved tlen opc : Nat),
    reserved = w.toNat / 65536 → tlen = w.toNat / 256 % 256 → opc = w.toNat % 256 →
    (reserved ≠ 0 → ∀ i, decode w ≠ .ok i) ∧
    (reserved = 0 → tlen = 0 →
      (opc = 1 → decode w = .ok .gfmul) ∧ (opc = 2 → decode w = .ok .ghash) ∧ (opc = 3 → decode w = .ok .derivej0) ∧
      (opc = 4 → decode w = .ok .inc32) ∧ (opc = 5 → decode w = .ok .gctr) ∧ (opc = 6 → decode w = .ok .derivecommon)) ∧
    (reserved = 0 → 1 ≤ opc → opc ≤ 6 → tlen ≠ 0 → ∀ i, decode w ≠ .ok i) ∧
    (reserved = 0 →
      (opc = 7 → decode w = .ok (.computetag tlen)) ∧ (opc = 8 → decode w = .ok (.encrypt tlen)) ∧
      (opc = 9 → decode w = .ok (.decrypt tlen)) ∧ (opc = 10 → decode w = .ok (.encryptappend tlen)) ∧
      (opc = 11 → decode w = .ok (.decryptappended tlen))) ∧
    (reserved = 0 → (opc = 0 ∨ 12 ≤ opc) → ∀ i, decode w ≠ .ok i)

/-- Every well-formed command, with every TLEN the field admits, is what its word decodes to (30_encoding.md R81 to R84). -/
def Obligations.DecodeOfEncodeGivesTheCommand : Prop := ∀ i, WellFormed i → decode (encode i) = .ok i

/-- Each legal word has one meaning: it is the encoding of the well-formed command it decodes to (92 D10: "the model's decode
injective on legal words"). -/
def Obligations.EncodeOfDecodeGivesTheWord : Prop := ∀ w i, decode w = .ok i → WellFormed i ∧ encode i = w

/-- 30_encoding.md R83: a word selects a row of the opcode map exactly when it decodes, the row is its command's, and no other
row matches. -/
def Obligations.OpcodeMapSelectsOneRow : Prop :=
  ∀ w, ((∃ r ∈ opcodeMap, r.selects w = true) ↔ ∃ i, decode w = .ok i) ∧
    ∀ i, decode w = .ok i → i.row.selects w = true ∧ ∀ r ∈ opcodeMap, r.selects w = true → r = i.row

/-- 30_encoding.md R85: every other word, written to CMD, completes with IllegalCommand and has no other effect; exactly 1286
words are legal. -/
def Obligations.IllegalWordsCompleteWithIllegalCommand : Prop :=
  (∀ (s : State) (w : Word) (rest : List Input), s.pending = .move (.csrWrite 0 w) :: rest →
    (w.toNat / 65536 ≠ 0 ∨ w.toNat % 256 = 0 ∨ 12 ≤ w.toNat % 256 ∨
      (1 ≤ w.toNat % 256 ∧ w.toNat % 256 ≤ 6 ∧ w.toNat / 256 % 256 ≠ 0)) →
    ∃ t, step s = .next t ∧ Raised { s with pending := rest } t 5#4 false) ∧
  ∃ legal : List Word, legal.Nodup ∧ legal.length = 1286 ∧ ∀ w, w ∈ legal ↔ ∃ i, decode w = .ok i

/-! The step, the host and reset -/

/-- 30_encoding.md R80, R91: when the host's next move writes a word to CMD and the word decodes to i, the step is exec of i, with
that move taken off the host's list (log 1); withFetchWord places exactly such a move (log 15). -/
def Obligations.StepRunsTheDecodedCommand : Prop :=
  (∀ (s : State) (w : Word) (i : Instr) (rest : List Input), s.pending = .move (.csrWrite 0 w) :: rest →
    decode w = .ok i → step s = exec i { s with pending := rest }) ∧
  ∀ (s : State) (i : Instr), WellFormed i → step (s.withFetchWord 32 (encode i).toNat) = exec i s

/-- 20_memory.md R54, row by row, with the registers' places of 10_state.md R23. A read hands its value to the host and changes
nothing else (the list it goes to is log 3). R54's last sentences, with 93_implementation_defined.md U1 and U2: a byte that holds no
value has no answer, and an offset at or above the capacity is no move; the model's form of both is a step with no next state, under
a name (log 5, log 9). -/
def Obligations.HostMovesFollowTheTable : Prop :=
  ∀ (s : State) (rest : List Input),
    (∀ n, s.pending = .move (.csrRead n) :: rest → ∃ v : Word,
      step s = .next { s with pending := rest, answers := .csr v :: s.answers } ∧
      (n = 0 → v = 0#32) ∧ (n = 1 → v = s.status) ∧ (n = 2 → v = s.keylen) ∧ (n = 3 → v = s.ivlen) ∧
      (n = 4 → v = s.aadlen) ∧ (n = 5 → v = s.dinlen) ∧ (n = 6 → v = s.doutlen) ∧ (6 < n → v = 0#32)) ∧
    (∀ n v, s.pending = .move (.csrWrite n v) :: rest →
      (n = 0 → step s = issue v { s with pending := rest }) ∧
      (n = 2 → step s = .next { s with pending := rest, keylen := v }) ∧
      (n = 3 → step s = .next { s with pending := rest, ivlen := v }) ∧
      (n = 4 → step s = .next { s with pending := rest, aadlen := v }) ∧
      (n = 5 → step s = .next { s with pending := rest, dinlen := v }) ∧
      (n = 1 ∨ 6 ≤ n → step s = .next { s with pending := rest })) ∧
    (∀ r, s.pending = .move (.blkRead r) :: rest →
      step s = .next { s with pending := rest, answers := .blk (s.getBlk r) :: s.answers }) ∧
    (∀ r v, s.pending = .move (.blkWrite r v) :: rest →
      ∃ t, step s = .next t ∧ t.getBlk r = v ∧ Frame { s with pending := rest } t [r] [] noBytes) ∧
    (∀ b a, s.pending = .move (.bufRead b a) :: rest →
      (a < capacity Config.params b → ∀ v, s.byte b a = some v →
        step s = .next { s with pending := rest, answers := .byte v :: s.answers }) ∧
      (a < capacity Config.params b → s.byte b a = none → step s = .fault (.unwrittenByte b)) ∧
      (capacity Config.params b ≤ a → step s = .fault (.noSuchLocation b a))) ∧
    (∀ b a v, s.pending = .move (.bufWrite b a v) :: rest →
      (a < capacity Config.params b → b ≠ .dout →
        ∃ t, step s = .next t ∧ t.byte b a = some v ∧
          Frame { s with pending := rest } t [] [] (fun b' a' => b' = b ∧ a' = a)) ∧
      (a < capacity Config.params b → b = .dout → step s = .next { s with pending := rest }) ∧
      (capacity Config.params b ≤ a → step s = .fault (.noSuchLocation b a)))

/-- 10_state.md R34, 70_reset_and_hazards.md R200: after reset every CSR reads 0 and no buffer byte holds a value, in State.reset
and after a reset input in any state, which leaves the host's list and answers alone (log 8). -/
def Obligations.ResetHoldsTheTable : Prop :=
  (∀ n, State.reset.csr n = 0#32) ∧ (∀ b a, State.reset.byte b a = none) ∧
  ∀ (s : State) (rest : List Input), s.pending = .reset :: rest →
    ∃ t, step s = .next t ∧ (∀ n, t.csr n = 0#32) ∧ (∀ b a, t.byte b a = none) ∧ t.pending = rest ∧ t.answers = s.answers

/-- 10_state.md R26 and 00_scope.md R7: the six capacities and their ranges. -/
def Obligations.CapacitiesMeetTheirConstraints : Prop :=
  capacity Config.params .key = 32 ∧ capacity Config.params .tag = 16 ∧
  capacity Config.params .dout = capacity Config.params .din + 16 ∧
  12 ≤ capacity Config.params .iv ∧ capacity Config.params .iv < 2 ^ 32 ∧ capacity Config.params .aad < 2 ^ 32 ∧
  16 ≤ capacity Config.params .din ∧ capacity Config.params .din < 2 ^ 32 - 16

/-- 10_state.md R25, 70_reset_and_hazards.md R200: only a reset takes DONE back to 0. -/
def Obligations.OnlyResetClearsDone : Prop :=
  ∀ s t, step s = .next t → s.done = true → t.done = true ∨ ∃ rest, s.pending = .reset :: rest

/-! The multiplier -/

/-- 40_gf_multiplier.md R101: MUL is the loop over k = 0 .. 127 on the pair (Z, V). -/
def Obligations.MulFollowsItsProcedure : Prop :=
  ∀ x y : Block, mul x y =
    ((List.range 128).foldl
      (fun (zv : Block × Block) k =>
        (if x.getLsbD (127 - k) then zv.1 ^^^ zv.2 else zv.1,
         if zv.2.getLsbD 0 then (zv.2 >>> 1) ^^^ 0xE1000000000000000000000000000000#128 else zv.2 >>> 1))
      (0#128, y)).1

/-- 40_gf_multiplier.md R103: the shift of four 32-bit words, and the XOR with R changes only the first. -/
def Obligations.ShiftOfFourWords : Prop :=
  ∀ w0 w1 w2 w3 : BitVec 32, mulShift (w0 ++ w1 ++ w2 ++ w3) =
    ((0#1 ++ w0.extractLsb' 1 31) ^^^ (if w3.getLsbD 0 then 0xE1000000#32 else 0#32)) ++
      (w0.extractLsb' 0 1 ++ w1.extractLsb' 1 31) ++ (w1.extractLsb' 0 1 ++ w2.extractLsb' 1 31) ++
      (w2.extractLsb' 0 1 ++ w3.extractLsb' 1 31)

/-- 40_gf_multiplier.md R104 (b) to (f), which the spec marks as its own inference from R101: MUL adds up the V_k of the set bits
of X, is linear over XOR on both sides, and its values at the first two bits. -/
def Obligations.MulIsLinear : Prop :=
  (∀ x y, mul x y =
    (List.range 128).foldl (fun z k => if x.getLsbD (127 - k) then z ^^^ shiftedY y k else z) 0#128) ∧
  (∀ x x' y, mul (x ^^^ x') y = mul x y ^^^ mul x' y) ∧ (∀ x y y', mul x (y ^^^ y') = mul x y ^^^ mul x y') ∧
  (∀ y, mul 0#128 y = 0#128) ∧ (∀ x, mul x 0#128 = 0#128) ∧
  (∀ y, mul 0x80000000000000000000000000000000#128 y = y) ∧
  ∀ y, mul 0x40000000000000000000000000000000#128 y = shiftedY y 1

/-- 40_gf_multiplier.md R104 (g), from general knowledge and proved here from R101 alone: MUL is commutative and associative. -/
def Obligations.MulIsCommutativeAndAssociative : Prop :=
  (∀ x y, mul x y = mul y x) ∧ ∀ x y z, mul (mul x y) z = mul x (mul y z)

/-- 40_gf_multiplier.md R102: GFMUL's word, result, completion and frame, for every pair of operands; its worked example. -/
def Obligations.GfmulMultiplies : Prop :=
  encode .gfmul = 0x00000001#32 ∧
  mul 0x0388dace60b6a392f328c2b971b2fe78#128 0x66e94bd4ef8a2c3b884cfa59ca342b2e#128 =
    0x5e2ec746917062882c85b0685353deb7#128 ∧
  ∀ s, ∃ t, exec .gfmul s = .next t ∧ t.getBlk .mz = mul (s.getBlk .mx) (s.getBlk .my) ∧ Completed s t 0#4 ∧
    Frame s t [.mz] [1] noBytes ∧ (s.getBlk .mx = 0#128 ∨ s.getBlk .my = 0#128 → t.getBlk .mz = 0#128) ∧
    (s.getBlk .mx = 0x80000000000000000000000000000000#128 → t.getBlk .mz = s.getBlk .my)

/-! GHASH -/

/-- 41_ghash.md R111: Y_0 = 0, and each block is XORed in before the multiplication by H, H the shifted operand. -/
def Obligations.GhashFollowsItsRecurrence : Prop :=
  ∀ h, ghash h [] = 0#128 ∧ ∀ xs x, ghash h (xs ++ [x]) = mul (ghash h xs ^^^ x) h

/-- 41_ghash.md R113 (a) to (c), which the spec marks as its own inference: a fold, linear in the data for equal lengths, and deaf
to a leading zero block. -/
def Obligations.GhashIsALinearFold : Prop :=
  (∀ h xs ys, ghash h (xs ++ ys) = ys.foldl (fun y x => mul (y ^^^ x) h) (ghash h xs)) ∧
  (∀ h (xs ys : List Block), xs.length = ys.length →
    ghash h (List.zipWith (· ^^^ ·) xs ys) = ghash h xs ^^^ ghash h ys) ∧
  ∀ h xs, ghash h (0#128 :: xs) = ghash h xs

/-- 41_ghash.md R112: GHASH's word, its result for every operand of whole blocks that fits, and its one error; its worked
example. -/
def Obligations.GhashHashesDin : Prop :=
  encode .ghash = 0x00000002#32 ∧
  ghash 0x66e94bd4ef8a2c3b884cfa59ca342b2e#128 [0x0388dace60b6a392f328c2b971b2fe78#128] =
    0x5e2ec746917062882c85b0685353deb7#128 ∧
  ghash 0x66e94bd4ef8a2c3b884cfa59ca342b2e#128
    [0x0388dace60b6a392f328c2b971b2fe78#128, 0x00000000000000000000000000000080#128] =
    0xf38cbb1ad69223dcc3457ae5b6b0f885#128 ∧
  (∀ s x, HoldsOperand s .din x → x.length ≤ Config.capDin → x.length % 16 = 0 →
    ∃ t, exec .ghash s = .next t ∧ t.getBlk .gy = ghash (s.getBlk .hk) (wholeBlocks x) ∧ Completed s t 0#4 ∧
      Frame s t [.gy] [1] noBytes ∧
      (x = [] ∨ s.getBlk .hk = 0#128 ∨ (∀ b ∈ wholeBlocks x, b = 0#128) → t.getBlk .gy = 0#128)) ∧
  ∀ s, Config.capDin < s.dinlen.toNat ∨ s.dinlen.toNat % 16 ≠ 0 → ∃ t, exec .ghash s = .next t ∧ Raised s t 6#4 false

/-! Counters -/

/-- 42_counter.md R121, reading B of 90_conflicts.md C1: twelve nonce bytes then 00 00 00 01; any other nonce, the hash of the
padded string with 64 zero bits and the bit length. -/
def Obligations.InitialCounterFollowsItsBranches : Prop :=
  ∀ h iv,
    (iv.length = 12 → bytesOfBlock (deriveJ0 h iv) = iv ++ [0#8, 0#8, 0#8, 1#8]) ∧
    (iv.length ≠ 12 → ∃ t : List Byte, deriveJ0 h iv = ghash h (wholeBlocks t) ∧
      t = iv ++ List.replicate ((16 - iv.length % 16) % 16) 0#8 ++ List.replicate 8 0#8 ++ be64 (8 * iv.length) ∧
      t.length = 16 * ((iv.length + 15) / 16) + 16)

/-- 42_counter.md R125: the empty nonce gives J0 = 0 for every H, and DERIVEJ0 computes it without an error. -/
def Obligations.EmptyNonceGivesZero : Prop :=
  (∀ h, deriveJ0 h [] = 0#128) ∧
  ∀ s, s.ivlen = 0#32 → ∃ t, exec .derivej0 s = .next t ∧ t.code = 0#4 ∧ t.getBlk .j0 = 0#128

/-- 42_counter.md R123: the low 32 bits plus 1 modulo 2^32, bytes 0 to 11 copied. -/
def Obligations.Inc32AddsOneToTheLowWord : Prop :=
  ∀ b : Block, (inc32 b).toNat / 2 ^ 32 = b.toNat / 2 ^ 32 ∧
    (inc32 b).toNat % 2 ^ 32 = (b.toNat % 2 ^ 32 + 1) % 2 ^ 32 ∧
    (bytesOfBlock (inc32 b)).take 12 = (bytesOfBlock b).take 12

/-- 43_gctr.md R130: CB_1 is the ICB, CB_i has i - 1 added to its low word modulo 2^32 and the ICB's upper 96 bits. -/
def Obligations.CounterBlocksCountUp : Prop :=
  ∀ (icb : Block) (n : Nat), (counterBlocks icb n).length = n ∧
    ∀ i (h : i < (counterBlocks icb n).length),
      (counterBlocks icb n)[i].toNat / 2 ^ 32 = icb.toNat / 2 ^ 32 ∧
      (counterBlocks icb n)[i].toNat % 2 ^ 32 = (icb.toNat % 2 ^ 32 + i) % 2 ^ 32

/-- 42_counter.md R122: DERIVEJ0's word, its result for every nonce that fits, its one error on any instance (exec is the instance
Config.params); on the 96-bit branch HK does not matter, an empty nonce gives 0; its worked example. -/
def Obligations.Derivej0Derives : Prop :=
  encode .derivej0 = 0x00000003#32 ∧
  deriveJ0 0xb83b533708bf535d0aa6e52980d53b78#128 [0xca#8, 0xfe#8, 0xba#8, 0xbe#8, 0xfa#8, 0xce#8, 0xdb#8, 0xad#8] =
    0xc43a83c4c4badec4354ca984db252f7d#128 ∧
  (∀ s iv, HoldsOperand s .iv iv → iv.length ≤ Config.capIv →
    ∃ t, exec .derivej0 s = .next t ∧ t.getBlk .j0 = deriveJ0 (s.getBlk .hk) iv ∧ Completed s t 0#4 ∧
      Frame s t [.j0] [1] noBytes ∧ (iv.length = 12 → ∀ h, t.getBlk .j0 = deriveJ0 h iv) ∧
      (iv = [] → t.getBlk .j0 = 0#128)) ∧
  (∀ s, exec .derivej0 s = execOn Config.params .derivej0 s) ∧
  ∀ p s, p.capIv < s.ivlen.toNat → ∃ t, execOn p .derivej0 s = .next t ∧ Raised s t 6#4 false

/-- 42_counter.md R124: INC32's word, result, completion and frame; 2^32 increments return the original block; its worked
example. -/
def Obligations.Inc32Increments : Prop :=
  encode .inc32 = 0x00000004#32 ∧ inc32 0xffffffffffffffffffffffffffffffff#128 = 0xffffffffffffffffffffffff00000000#128 ∧
  (∀ b : Block, inc32^[2 ^ 32] b = b) ∧
  ∀ s, ∃ t, exec .inc32 s = .next t ∧ t.getBlk .cb = inc32 (s.getBlk .cb) ∧ Completed s t 0#4 ∧
    Frame s t [.cb] [1] noBytes

/-! GCTR -/

/-- 43_gctr.md R131: the output is as long as the input, and byte j is the input's XOR byte j mod 16 of E on the counter block of
its block; E is asked for exactly those blocks, in order (50_block_cipher_port.md R175's list). -/
def Obligations.GctrXorsTheKeyStream : Prop :=
  ∀ (e : Block → Block) (icb : Block) (s : List Byte),
    (gctr e icb s).length = s.length ∧
    (∀ j (h : j < s.length) (h' : j < (gctr e icb s).length),
      (gctr e icb s)[j] = s[j] ^^^ (bytesOfBlock (e (inc32^[j / 16] icb)))[j % 16]'(by simp [bytesOfBlock]; omega)) ∧
    gctrCalls icb s = (List.range ((s.length + 15) / 16)).map fun i => inc32^[i] icb

/-- 43_gctr.md R134, which the spec marks as its own inference from R131: GCTR is its own inverse, output block i depends on input
block i alone, a prefix gives the prefix, and E is called once a block. -/
def Obligations.GctrIsItsOwnInverse : Prop :=
  ∀ (e : Block → Block) (icb : Block),
    (∀ s, gctr e icb (gctr e icb s) = s) ∧
    (∀ s s' : List Byte, s.length = s'.length → ∀ i,
      (s.drop (16 * i)).take 16 = (s'.drop (16 * i)).take 16 →
      ((gctr e icb s).drop (16 * i)).take 16 = ((gctr e icb s').drop (16 * i)).take 16) ∧
    (∀ s k, gctr e icb (s.take k) = (gctr e icb s).take k) ∧
    ∀ s, (gctrCalls icb s).length = (s.length + 15) / 16

/-- 43_gctr.md R133: GCTR's word, its result for every operand that fits and legal key, its provider calls and its errors; its
worked example, for any provider with the value it lists. -/
def Obligations.GctrEncryptsDin : Prop :=
  encode .gctr = 0x00000005#32 ∧
  (∀ e : Block → Block, e 2#128 = 0x0388dace60b6a392f328c2b971b2fe78#128 →
    gctr e 2#128 [0x01#8, 0x02#8, 0x03#8, 0x04#8, 0x05#8] = [0x02#8, 0x8a#8, 0xd9#8, 0xca#8, 0x65#8]) ∧
  (∀ s key x, HoldsOperand s .key key → HoldsOperand s .din x → key.length ∈ [16, 24, 32] → x.length ≤ Config.capDin →
    ∃ t, exec .gctr s = .next t ∧ HoldsResult t (gctr (Config.blockCipher key) (s.getBlk .cb) x) ∧
      t.doutlen = s.dinlen ∧ Completed s t 0#4 ∧ Frame s t [] [1, 6] (doutBelow x.length) ∧
      portCalls Config.params .gctr s =
        (List.range ((x.length + 15) / 16)).map fun i => { key := key, block := inc32^[i] (s.getBlk .cb) }) ∧
  (∀ s, s.keylen.toNat ∉ [16, 24, 32] → ∃ t, exec .gctr s = .next t ∧ Raised s t 1#4 true) ∧
  ∀ s, s.keylen.toNat ∈ [16, 24, 32] → Config.capDin < s.dinlen.toNat →
    ∃ t, exec .gctr s = .next t ∧ Raised s t 6#4 true

/-! The tag engine -/

/-- 44_tag_engine.md R142: each segment is padded on its own, the block of the two bit lengths comes last, and two empty inputs
give one zero block. -/
def Obligations.TagStringHasItsBlocks : Prop :=
  (∀ a c : List Byte,
    wholeBlocks (tagString a c) = wholeBlocks (pad128 a) ++ wholeBlocks (pad128 c) ++
      [BitVec.ofNat 64 (8 * a.length) ++ BitVec.ofNat 64 (8 * c.length)] ∧
    (wholeBlocks (tagString a c)).length = (a.length + 15) / 16 + (c.length + 15) / 16 + 1) ∧
  (∀ s : List Byte, s.length % 16 = 0 → pad128 s = s) ∧ wholeBlocks (tagString [] []) = [0#128]

/-- 44_tag_engine.md R143: the tag is the leading t/8 bytes of S ^ E(key, J0), J0 itself the one counter block. -/
def Obligations.TagIsTheMaskedHash : Prop :=
  ∀ (e : Block → Block) (h j0 : Block) (a c : List Byte), ∀ t ∈ [96, 104, 112, 120, 128],
    computeTag e h j0 a c t = (bytesOfBlock (ghash h (wholeBlocks (tagString a c)) ^^^ e j0)).take (t / 8) ∧
    (computeTag e h j0 a c t).length = t / 8

/-- 44_tag_engine.md R141: DERIVECOMMON's word, its result for every nonce that fits and legal key, its one provider call, and its
errors (the second on any instance; exec is the instance Config.params); the AAD plays no part; its worked example's J0. -/
def Obligations.DerivecommonDerives : Prop :=
  encode .derivecommon = 0x00000006#32 ∧
  (∀ h, deriveJ0 h [0xca#8, 0xfe#8, 0xba#8, 0xbe#8, 0xfa#8, 0xce#8, 0xdb#8, 0xad#8, 0xde#8, 0xca#8, 0xf8#8, 0x88#8] =
    0xcafebabefacedbaddecaf88800000001#128) ∧
  (∀ s key iv, HoldsOperand s .key key → HoldsOperand s .iv iv → key.length ∈ [16, 24, 32] → iv.length ≤ Config.capIv →
    ∃ t, exec .derivecommon s = .next t ∧ t.getBlk .hk = Config.blockCipher key 0#128 ∧
      t.getBlk .j0 = deriveJ0 (Config.blockCipher key 0#128) iv ∧ Completed s t 0#4 ∧
      Frame s t [.hk, .j0] [1] noBytes ∧ portCalls Config.params .derivecommon s = [{ key := key, block := 0#128 }] ∧
      (iv.length = 12 → ∀ h, t.getBlk .j0 = deriveJ0 h iv) ∧ (iv = [] → t.getBlk .j0 = 0#128)) ∧
  (∀ s, s.keylen.toNat ∉ [16, 24, 32] → ∃ t, exec .derivecommon s = .next t ∧ Raised s t 1#4 false) ∧
  (∀ s, exec .derivecommon s = execOn Config.params .derivecommon s) ∧
  ∀ p s, s.keylen.toNat ∈ [16, 24, 32] → p.capIv < s.ivlen.toNat →
    ∃ t, execOn p .derivecommon s = .next t ∧ Raised s t 6#4 false

/-- 44_tag_engine.md R144 with R145: COMPUTETAG's words, the tag it leaves in TAG with zero bytes after it for every legal TLEN,
under whatever H and J0 the registers hold, its one provider call, and its errors; its worked example, for any provider with the
values it lists. -/
def Obligations.ComputetagWritesTheTag : Prop :=
  (∀ t, t < 256 → encode (.computetag t) = 0x00000007#32 ||| (BitVec.ofNat 32 t <<< 8)) ∧
  (∀ e, VectorPairs e →
    computeTag e (e 0#128) 1#128 [] (bytesOfBlock 0x0388dace60b6a392f328c2b971b2fe78#128) 128 =
      bytesOfBlock 0xab6e47d42cec13bdf53a67b21257bddf#128) ∧
  (∀ s tlen key aad c, HoldsOperand s .key key → HoldsOperand s .aad aad → HoldsOperand s .din c →
    key.length ∈ [16, 24, 32] → tlen ∈ [96, 104, 112, 120, 128] → aad.length ≤ Config.capAad → c.length ≤ Config.capDin →
    ∃ t, exec (.computetag tlen) s = .next t ∧
      HoldsTag t (computeTag (Config.blockCipher key) (s.getBlk .hk) (s.getBlk .j0) aad c tlen) ∧ Completed s t 0#4 ∧
      Frame s t [] [1] allOfTag ∧
      portCalls Config.params (.computetag tlen) s = [{ key := key, block := s.getBlk .j0 }] ∧
      (aad = [] → c = [] → HoldsTag t ((bytesOfBlock (Config.blockCipher key (s.getBlk .j0))).take (tlen / 8)))) ∧
  ∀ tlen, RaisesItsErrors (.computetag tlen)

/-! The one-shot commands -/

/-- 45_aead_ops.md R151: ENCRYPT's words (the bare one among them), ciphertext, tag, frame and number of provider calls for every
legal operand, and its errors. J0 is derived under H = E(key, 0), serves the tag only, and no counter block repeats. Its worked
example, for any provider with the values it lists. -/
def Obligations.EncryptSeals : Prop :=
  (∀ t, t < 256 → encode (.encrypt t) = 0x00000008#32 ||| (BitVec.ofNat 32 t <<< 8)) ∧
  encode encryptDefault = 0x00008008#32 ∧
  (∀ e, VectorPairs e → ∀ j0 c, j0 = deriveJ0 (e 0#128) (zeros 12) → c = gctr e (inc32 j0) (zeros 16) →
    c = bytesOfBlock 0x0388dace60b6a392f328c2b971b2fe78#128 ∧
    computeTag e (e 0#128) j0 [] c 128 = bytesOfBlock 0xab6e47d42cec13bdf53a67b21257bddf#128) ∧
  (∀ s tlen key iv aad pt, AeadReady s tlen key iv aad pt →
    ∀ (e : Block → Block) (h j0 : Block) (c : List Byte), e = Config.blockCipher key → h = e 0#128 → j0 = deriveJ0 h iv →
      c = gctr e (inc32 j0) pt →
    ∃ t, exec (.encrypt tlen) s = .next t ∧ HoldsResult t c ∧ HoldsTag t (computeTag e h j0 aad c tlen) ∧
      t.doutlen = s.dinlen ∧ Completed s t 0#4 ∧
      Frame s t [] [1, 6] (fun b a => doutBelow pt.length b a ∨ allOfTag b a) ∧
      (portCalls Config.params (.encrypt tlen) s).length = 2 + (pt.length + 15) / 16 ∧
      (j0 :: gctrCalls (inc32 j0) pt).Nodup ∧
      (aad = [] → pt = [] → HoldsTag t ((bytesOfBlock (e j0)).take (tlen / 8)))) ∧
  ∀ tlen, RaisesItsErrors (.encrypt tlen)

/-- 45_aead_ops.md R152: DECRYPT's words; with the expected tag in TAG it leaves the plaintext, with any other it ends with
AuthenticationFailure and no byte of DOUT; its number of provider calls in each case (R157 and the table of
50_block_cipher_port.md R175, which the spec marks as derived, on the list of log 11); its validation errors. Its worked example,
for any provider with the values it lists. -/
def Obligations.DecryptVerifiesThenOpens : Prop :=
  (∀ t, t < 256 → encode (.decrypt t) = 0x00000009#32 ||| (BitVec.ofNat 32 t <<< 8)) ∧
  (∀ e, VectorPairs e → ∀ j0 c, j0 = deriveJ0 (e 0#128) (zeros 12) →
    c = bytesOfBlock 0x0388dace60b6a392f328c2b971b2fe78#128 →
    gctr e (inc32 j0) c = zeros 16 ∧
    tagEq (computeTag e (e 0#128) j0 [] c 128) (bytesOfBlock 0xab6e47d42cec13bdf53a67b21257bddf#128) = true ∧
    tagEq (computeTag e (e 0#128) j0 [] c 128) (bytesOfBlock 0x2b6e47d42cec13bdf53a67b21257bddf#128) = false) ∧
  (∀ s tlen key iv aad c tag, AeadReady s tlen key iv aad c → tag.length = tlen / 8 → Holds s .tag 0 tag →
    ∀ (e : Block → Block) (h j0 : Block), e = Config.blockCipher key → h = e 0#128 → j0 = deriveJ0 h iv →
    (tag = computeTag e h j0 aad c tlen →
      ∃ t, exec (.decrypt tlen) s = .next t ∧ HoldsResult t (gctr e (inc32 j0) c) ∧ t.doutlen = s.dinlen ∧
        Completed s t 0#4 ∧ Frame s t [] [1, 6] (doutBelow c.length) ∧
        (portCalls Config.params (.decrypt tlen) s).length = 2 + (c.length + 15) / 16) ∧
    (tag ≠ computeTag e h j0 aad c tlen →
      ∃ t, exec (.decrypt tlen) s = .next t ∧ Raised s t 3#4 true ∧
        (portCalls Config.params (.decrypt tlen) s).length = 2)) ∧
  ∀ tlen, RaisesItsErrors (.decrypt tlen)

/-- 45_aead_ops.md R154: ENCRYPTAPPEND's words (the bare one among them), C ‖ Tag in DOUT and its length for every legal operand,
TAG untouched, its number of provider calls (the table of 50_block_cipher_port.md R175, which the spec marks as derived, on the
list of log 11), and its errors; its worked example, for any provider with the values it lists. -/
def Obligations.EncryptappendSealsToDout : Prop :=
  (∀ t, t < 256 → encode (.encryptappend t) = 0x0000000A#32 ||| (BitVec.ofNat 32 t <<< 8)) ∧
  encode encryptappendDefault = 0x0000800A#32 ∧
  (∀ e, VectorPairs e → ∀ j0 c, j0 = deriveJ0 (e 0#128) (zeros 12) → c = gctr e (inc32 j0) (zeros 16) →
    c ++ computeTag e (e 0#128) j0 [] c 128 =
      bytesOfBlock 0x0388dace60b6a392f328c2b971b2fe78#128 ++ bytesOfBlock 0xab6e47d42cec13bdf53a67b21257bddf#128) ∧
  (∀ s tlen key iv aad pt, AeadReady s tlen key iv aad pt →
    ∀ (e : Block → Block) (h j0 : Block) (c : List Byte), e = Config.blockCipher key → h = e 0#128 → j0 = deriveJ0 h iv →
      c = gctr e (inc32 j0) pt →
    ∃ t, exec (.encryptappend tlen) s = .next t ∧ HoldsResult t (c ++ computeTag e h j0 aad c tlen) ∧
      t.doutlen.toNat = s.dinlen.toNat + tlen / 8 ∧ Completed s t 0#4 ∧
      Frame s t [] [1, 6] (doutBelow (pt.length + tlen / 8)) ∧
      (portCalls Config.params (.encryptappend tlen) s).length = 2 + (pt.length + 15) / 16) ∧
  ∀ tlen, RaisesItsErrors (.encryptappend tlen)

/-- 45_aead_ops.md R155: DECRYPTAPPENDED's words (the bare one among them); the last TLEN/8 bytes of DIN are the tag, the bytes
before them the ciphertext; TAG is not read; its number of provider calls in each case (R157 and the table of
50_block_cipher_port.md R175, which the spec marks as derived, on the list of log 11); its errors, a Combined shorter than the tag
among them; its worked example, for any provider with the values it lists. -/
def Obligations.DecryptappendedSplitsAndOpens : Prop :=
  (∀ t, t < 256 → encode (.decryptappended t) = 0x0000000B#32 ||| (BitVec.ofNat 32 t <<< 8)) ∧
  encode decryptappendedDefault = 0x0000800B#32 ∧
  (∀ e, VectorPairs e → ∀ j0 din, j0 = deriveJ0 (e 0#128) (zeros 12) →
    din = bytesOfBlock 0x0388dace60b6a392f328c2b971b2fe78#128 ++ bytesOfBlock 0xab6e47d42cec13bdf53a67b21257bddf#128 →
    gctr e (inc32 j0) (din.take 16) = zeros 16 ∧
    tagEq (computeTag e (e 0#128) j0 [] (din.take 16) 128) (din.drop 16) = true) ∧
  (∀ s tlen key iv aad c tag, AeadReady s tlen key iv aad (c ++ tag) → tag.length = tlen / 8 →
    ∀ (e : Block → Block) (h j0 : Block), e = Config.blockCipher key → h = e 0#128 → j0 = deriveJ0 h iv →
    (tag = computeTag e h j0 aad c tlen →
      ∃ t, exec (.decryptappended tlen) s = .next t ∧ HoldsResult t (gctr e (inc32 j0) c) ∧
        t.doutlen.toNat = s.dinlen.toNat - tlen / 8 ∧ Completed s t 0#4 ∧ Frame s t [] [1, 6] (doutBelow c.length) ∧
        (portCalls Config.params (.decryptappended tlen) s).length = 2 + (c.length + 15) / 16) ∧
    (tag ≠ computeTag e h j0 aad c tlen →
      ∃ t, exec (.decryptappended tlen) s = .next t ∧ Raised s t 3#4 true ∧
        (portCalls Config.params (.decryptappended tlen) s).length = 2)) ∧
  (∀ s tlen, s.keylen.toNat ∈ [16, 24, 32] → tlen ∈ [96, 104, 112, 120, 128] → s.ivlen.toNat ≤ Config.capIv →
    s.aadlen.toNat ≤ Config.capAad → s.dinlen.toNat < tlen / 8 →
    ∃ t, exec (.decryptappended tlen) s = .next t ∧ Raised s t 2#4 true) ∧
  ∀ tlen, RaisesItsErrors (.decryptappended tlen)

/-- 45_aead_ops.md R153: the comparator's answer is plain equality of the two strings. -/
def Obligations.TagComparisonIsEquality : Prop :=
  ∀ a b : List Byte, a.length = b.length → (tagEq a b = true ↔ a = b)

/-- 45_aead_ops.md R156 (a) with 70_reset_and_hazards.md R209, which the spec marks as its own inference: after an ENCRYPT that
completed OK, DECRYPT under the same key, nonce and AAD, with its DOUT as the ciphertext, its TAG, and any legal TLEN not above
its own, completes OK and gives the plaintext back. -/
def Obligations.DecryptUndoesEncrypt : Prop :=
  ∀ s u v tlen tlen' key iv aad pt c, AeadReady s tlen key iv aad pt → exec (.encrypt tlen) s = .next u →
    HoldsResult u c → AeadReady v tlen' key iv aad c → tlen' ≤ tlen →
    (∀ a, a < tlen' / 8 → v.byte .tag a = u.byte .tag a) →
    ∃ t, exec (.decrypt tlen') v = .next t ∧ t.code = 0#4 ∧ HoldsResult t pt

/-- 45_aead_ops.md R156 (b) for the tag, which the spec marks as its own inference: with any byte of the tag changed after an
ENCRYPT, DECRYPT with the same TLEN ends with AuthenticationFailure, DOUTLEN 0 and DOUT untouched. -/
def Obligations.ChangedTagFailsToDecrypt : Prop :=
  ∀ s u v tlen key iv aad pt c, AeadReady s tlen key iv aad pt → exec (.encrypt tlen) s = .next u →
    HoldsResult u c → AeadReady v tlen key iv aad c → (∀ a, a < tlen / 8 → v.byte .tag a ≠ none) →
    (∃ a, a < tlen / 8 ∧ v.byte .tag a ≠ u.byte .tag a) →
    ∃ t, exec (.decrypt tlen) v = .next t ∧ Raised v t 3#4 true

/-- 45_aead_ops.md R156 (d), which the spec marks as its own inference: DECRYPTAPPENDED gives back what ENCRYPTAPPEND sealed, for
every legal TLEN. -/
def Obligations.DecryptappendedUndoesEncryptappend : Prop :=
  ∀ s u v tlen key iv aad pt c, AeadReady s tlen key iv aad pt → exec (.encryptappend tlen) s = .next u →
    HoldsResult u c → AeadReady v tlen key iv aad c →
    ∃ t, exec (.decryptappended tlen) v = .next t ∧ t.code = 0#4 ∧ HoldsResult t pt

/-- 70_reset_and_hazards.md R208, 95_test_vectors.md P2: DERIVECOMMON, the host's copy of J0 to CB, INC32, GCTR, the host's copy of
DOUT to DIN and COMPUTETAG leave the ciphertext and the tag that ENCRYPT leaves. -/
def Obligations.EncryptIsItsPrimitives : Prop :=
  ∀ s u s1 s2 s3 s4 s5 tlen key iv aad pt c, AeadReady s tlen key iv aad pt → exec (.encrypt tlen) s = .next u →
    exec .derivecommon s = .next s1 →
    exec .inc32 (s1.setBlk .cb (s1.getBlk .j0)) = .next s2 →
    exec .gctr s2 = .next s3 → HoldsResult s3 c →
    HoldsOperand s4 .key key → HoldsOperand s4 .aad aad → HoldsOperand s4 .din c →
    s4.getBlk .hk = s3.getBlk .hk → s4.getBlk .j0 = s3.getBlk .j0 →
    exec (.computetag tlen) s4 = .next s5 →
    HoldsResult u c ∧ ∀ a, a < 16 → s5.byte .tag a = u.byte .tag a

/-! Errors, frames, faults -/

/-- 60_exceptions.md R183: a command word reports exactly one code, the first in the priority order. -/
def Obligations.ErrorsFollowTheirPriority : Prop :=
  ∀ (s : State) (w : Word) (rest : List Input), s.pending = .move (.csrWrite 0 w) :: rest →
    ((∀ i, decode w ≠ .ok i) → ∃ t, step s = .next t ∧ t.code = 5#4) ∧
    (∀ i c, decode w = .ok i → validationCode i s = some c → ∃ t, step s = .next t ∧ t.code = c) ∧
    ∀ i t, decode w = .ok i → validationCode i s = none → step s = .next t →
      t.code = 0#4 ∨ (t.code = 3#4 ∧ (i = .decrypt i.tlen ∨ i = .decryptappended i.tlen))

/-- 60_exceptions.md R184: whatever the error, a command word that ends with one writes STATUS, DOUTLEN when the command has DOUT
among its outputs, and nothing else; every error but AuthenticationFailure comes before any provider call. -/
def Obligations.ErrorsWriteStatusAndDoutlenOnly : Prop :=
  ∀ (s t : State) (w : Word) (rest : List Input), s.pending = .move (.csrWrite 0 w) :: rest → step s = .next t →
    t.code ≠ 0#4 →
    (∀ i, decode w = .ok i → Raised { s with pending := rest } t t.code (hasDout i) ∧
      (t.code ≠ 3#4 → portCalls Config.params i s = [])) ∧
    ((∀ i, decode w ≠ .ok i) → Raised { s with pending := rest } t t.code false)

/-- 10_state.md R21, 30_encoding.md R90, 20_memory.md R60, 60_exceptions.md R185: every command that completes, with or without an
error, sets DONE, writes only the block registers and buffers its row gives it, never KEY, IV, AAD, DIN or their length
registers, and leaves the host's side alone. -/
def Obligations.CommandsWriteOnlyTheirRow : Prop :=
  ∀ i s t, exec i s = .next t → Completed s t t.code ∧
    Frame s t (blkWrites i) (if hasDout i then [1, 6] else [1]) (fun b _ => writesByte i b)

/-- 10_state.md R37: DOUT and DOUTLEN are written only by commands (and reset, 10_state.md R34); after OK the bytes below DOUTLEN
are the result and the others keep their contents; after an error DOUTLEN is 0 and DOUT is untouched; a command without DOUT
among its outputs leaves both. -/
def Obligations.DoutIsWrittenByCommandsOnly : Prop :=
  ∀ (s t : State) (m : HostMove) (rest : List Input), s.pending = .move m :: rest → step s = .next t →
    ((∀ w, m ≠ .csrWrite 0 w) → t.doutlen = s.doutlen ∧ ∀ a, t.byte .dout a = s.byte .dout a) ∧
    (∀ w i, m = .csrWrite 0 w → decode w = .ok i → hasDout i = true → t.code = 0#4 → ∀ a,
      (a < t.doutlen.toNat → t.byte .dout a ≠ none) ∧ (t.doutlen.toNat ≤ a → t.byte .dout a = s.byte .dout a)) ∧
    (∀ w i, m = .csrWrite 0 w → decode w = .ok i → hasDout i = true → t.code ≠ 0#4 →
      t.doutlen = 0#32 ∧ ∀ a, t.byte .dout a = s.byte .dout a) ∧
    (∀ w i, m = .csrWrite 0 w → decode w = .ok i → hasDout i = false →
      t.doutlen = s.doutlen ∧ ∀ a, t.byte .dout a = s.byte .dout a) ∧
    ∀ w, m = .csrWrite 0 w → (∀ i, decode w ≠ .ok i) →
      t.doutlen = s.doutlen ∧ ∀ a, t.byte .dout a = s.byte .dout a

/-- 93_implementation_defined.md U1, 10_state.md R35 (for buffer bytes, log 5): a command stops exactly when its validations pass
and a byte it reads holds no value; otherwise it answers a next state, and it is never refused. -/
def Obligations.CommandsStopOnlyOnValuelessBytes : Prop :=
  ∀ i s, (∀ r, exec i s ≠ .refused r) ∧
    ((∃ f, exec i s = .fault f) ↔ validationCode i s = none ∧ ∃ b a, readsByte i s b a ∧ s.byte b a = none) ∧
    ∀ f, exec i s = .fault f → ∃ b a, f = .unwrittenByte b ∧ readsByte i s b a ∧ s.byte b a = none

/-- 60_exceptions.md R187: issuing a failed command again on the state it left changes nothing and reports the same code. -/
def Obligations.FailedCommandsFailAgain : Prop :=
  ∀ i s t, exec i s = .next t → t.code ≠ 0#4 → exec i t = .next t

/-! Invariant -/

/-- The invariant holds after reset (10_state.md R34). -/
def Obligations.ResetMeetsTheInvariant : Prop := State.reset.Inv

/-- Every step keeps the invariant: buffers in canonical form and inside their capacities, STATUS with the codes and reserved bits
of 10_state.md R25, and a result in every byte DOUTLEN speaks of. -/
def Obligations.StepKeepsTheInvariant : Prop := ∀ s t, s.Inv → step s = .next t → t.Inv

/-! What a result depends on -/

/-- 10_state.md R33 (b): the outcome of a command is a function of the inputs its row lists and of nothing else. -/
def Obligations.CommandsDependOnTheirInputsOnly : Prop :=
  ∀ i s s', SameInputs i s s' →
    (∀ t, exec i s = .next t → ∃ t', exec i s' = .next t' ∧ SameResults i t t') ∧
    ∀ f, exec i s = .fault f → exec i s' = .fault f

/-- 50_block_cipher_port.md R171, R175: exec is the command on this instance's parameters, and on any instance the outcome depends
on the provider only through its answers to the calls of R175's table. -/
def Obligations.ProviderMattersOnlyThroughItsCalls : Prop :=
  (∀ i s, exec i s = execOn Config.params i s) ∧
  ∀ (p : Params) (e : List Byte → Block → Block) (i : Instr) (s : State),
    (∀ c ∈ portCalls p i s, e c.key c.block = p.cipher c.key c.block) →
    execOn { p with cipher := e } i s = execOn p i s ∧ portCalls { p with cipher := e } i s = portCalls p i s

/-- 50_block_cipher_port.md R170, R174 and the rows of R175 without a call, which the spec marks as derived, all on the model's
own list of calls (log 11): every key handed to the provider has 16, 24 or 32 bytes and is what KEY holds below KEYLEN; a command
that ends in a validation error, and one that takes no key, makes no call. -/
def Obligations.ProviderKeysAreLegal : Prop :=
  ∀ i s, (∀ c ∈ portCalls Config.params i s, c.key.length ∈ [16, 24, 32] ∧ HoldsOperand s .key c.key) ∧
    (validationCode i s ≠ none ∨ usesKey i = false → portCalls Config.params i s = [])

/-- 30_encoding.md R89, 20_memory.md R55: the moves of `load BUF, string` on a waiting machine leave the string as the buffer's
operand (for TAG, its bytes with no length register) and change nothing else. -/
def Obligations.LoadScriptLoadsTheOperand : Prop :=
  ∀ (s : State) (b : Buf) (v : List Byte), s.pending = [] → b ≠ .dout → v.length ≤ capacity Config.params b →
    ∃ t, Host.Core.run Sys2Proof.core (loadLines b v).length (s.withScript (loadLines b v)) = .next t ∧ Holds t b 0 v ∧
      (b ≠ .tag → HoldsOperand t b v) ∧
      Frame s t [] (match lenCsr b with | some n => [n] | none => []) (fun b' a => b' = b ∧ a < v.length)
end

