-- ==== Sys2Proof/Laws/Bytes.lean ====
section
/-! SUPPORT. Byte strings and blocks: lengths, the two directions between a block and its sixteen bytes, and what cutting a string
gives. -/

namespace Sys2Proof.Machine

/-! Lengths -/

@[simp] theorem length_bytesOfBlock (b : Block) : (bytesOfBlock b).length = 16 := by simp [bytesOfBlock]

@[simp] theorem length_bigEndian (k n : Nat) : (bigEndian k n).length = k := by
  induction k with
  | zero => rfl
  | succ k ih => simp [bigEndian, ih]

@[simp] theorem length_be64 (n : Nat) : (be64 n).length = 8 := length_bigEndian 8 n

@[simp] theorem length_be32 (n : Nat) : (be32 n).length = 4 := length_bigEndian 4 n

@[simp] theorem length_zeros (n : Nat) : (zeros n).length = n := List.length_replicate

theorem length_pad128 (s : List Byte) : (pad128 s).length = 16 * ((s.length + 15) / 16) := by
  simp [pad128]; omega

@[simp] theorem length_truncate (v : Block) (n : Nat) : (truncate v n).length = min (n / 8) 16 := by
  simp [truncate]

@[simp] theorem length_xorBytes (a b : List Byte) : (xorBytes a b).length = min a.length b.length := by
  simp [xorBytes]

/-! A block and its bytes -/

@[simp] theorem getElem_bytesOfBlock (b : Block) (j : Nat) (h : j < (bytesOfBlock b).length) :
    (bytesOfBlock b)[j] = blockByte b j := by simp [bytesOfBlock]

theorem getElem_truncate (v : Block) (n j : Nat) (h : j < (truncate v n).length) : (truncate v n)[j] = blockByte v j := by
  simp [truncate]

theorem getElem_xorBytes (a b : List Byte) (j : Nat) (h : j < (xorBytes a b).length) :
    (xorBytes a b)[j] = a[j]'(by simp at h; omega) ^^^ b[j]'(by simp at h; omega) := by
  simp [xorBytes]

theorem getLsbD_blockByte (b : Block) (j i : Nat) (h : i < 8) : (blockByte b j).getLsbD i = b.getLsbD (120 - 8 * j + i) := by
  simp [blockByte, h]

/-- A bit of the block built from a string by shifting bytes in. -/
theorem getLsbD_foldl_shiftIn (s : List Byte) (acc : Block) (i : Nat) (hi : i < 128) :
    (s.foldl shiftIn acc).getLsbD i =
      if h : i / 8 < s.length then (s[s.length - 1 - i / 8]'(by omega)).getLsbD (i % 8)
      else acc.getLsbD (i - 8 * s.length) := by
  induction s generalizing acc with
  | nil => simp
  | cons x s ih =>
    rw [List.foldl_cons, ih, shiftIn]
    by_cases h1 : i / 8 < s.length
    · have h2 : i / 8 < (x :: s).length := by simp; omega
      have h3 : (x :: s).length - 1 - i / 8 = (s.length - 1 - i / 8) + 1 := by simp; omega
      simp only [h1, h2, h3, dif_pos, List.getElem_cons_succ]
    · have h8 : (x.setWidth 128).getLsbD (i - 8 * s.length) = x.getLsbD (i - 8 * s.length) := by
        rw [BitVec.getLsbD_setWidth]; simp; omega
      by_cases h2 : i / 8 = s.length
      · have h3 : i / 8 < (x :: s).length := by simp; omega
        have h4 : (x :: s).length - 1 - i / 8 = 0 := by simp; omega
        have h5 : i - 8 * s.length = i % 8 := by omega
        have h6 : i % 8 < 8 := by omega
        simp only [h1, h3, h4, dif_pos, dif_neg, not_false_iff, BitVec.getLsbD_or, BitVec.getLsbD_shiftLeft, h8]
        simp [h5, h6]
      · have h3 : ¬ i / 8 < (x :: s).length := by simp; omega
        have h5 : ¬ i - 8 * s.length < 8 := by omega
        have h6 : x.getLsbD (i - 8 * s.length) = false := BitVec.getLsbD_of_ge _ _ (by omega)
        have h7 : i - 8 * (x :: s).length = i - 8 * s.length - 8 := by simp; omega
        simp only [h1, h3, dif_neg, not_false_iff, BitVec.getLsbD_or, BitVec.getLsbD_shiftLeft, h8, h6, h7]
        simp [h5]
        intro; omega

theorem getLsbD_blockOfBytes (s : List Byte) (h : s.length = 16) (i : Nat) (hi : i < 128) :
    (blockOfBytes s).getLsbD i = (s[15 - i / 8]'(by omega)).getLsbD (i % 8) := by
  rw [blockOfBytes, getLsbD_foldl_shiftIn s _ i hi, dif_pos (by omega)]
  congr 2
  omega

/-- Byte 0 of a block comes first in its string, and back (20_memory.md R51). -/
theorem bytesOfBlock_blockOfBytes (s : List Byte) (h : s.length = 16) : bytesOfBlock (blockOfBytes s) = s := by
  refine List.ext_getElem (by simp [h]) fun j h1 h2 => ?_
  rw [getElem_bytesOfBlock]
  refine BitVec.eq_of_getLsbD_eq fun i hi => ?_
  have h3 : j < 16 := by omega
  rw [getLsbD_blockByte _ _ _ hi, getLsbD_blockOfBytes s h _ (by omega)]
  have e1 : 15 - (120 - 8 * j + i) / 8 = j := by omega
  have e2 : (120 - 8 * j + i) % 8 = i := by omega
  simp only [e1, e2]

theorem blockOfBytes_bytesOfBlock (b : Block) : blockOfBytes (bytesOfBlock b) = b := by
  refine BitVec.eq_of_getLsbD_eq fun i hi => ?_
  rw [getLsbD_blockOfBytes _ (length_bytesOfBlock b) i hi, getElem_bytesOfBlock, getLsbD_blockByte _ _ _ (by omega)]
  congr 1
  omega

/-! Cutting into blocks -/

@[simp] theorem length_cutInto (n : Nat) (s : List Byte) : (cutInto n s).length = n := by
  induction n generalizing s with
  | zero => rfl
  | succ n ih => simp [cutInto, ih]

@[simp] theorem length_cut (s : List Byte) : (cut s).length = (s.length + 15) / 16 := length_cutInto _ _

theorem cutInto_append (n m : Nat) (s t : List Byte) (h : s.length = 16 * n) :
    cutInto (n + m) (s ++ t) = cutInto n s ++ cutInto m t := by
  induction n generalizing s with
  | zero => simp [List.eq_nil_of_length_eq_zero (by simpa using h), cutInto]
  | succ n ih =>
    have h1 : 16 ≤ s.length := by omega
    rw [show n + 1 + m = (n + m) + 1 by omega, cutInto, cutInto, List.take_append_of_le_length h1,
      List.drop_append_of_le_length h1, ih _ (by simp; omega)]
    rfl

/-- Whole blocks in front are cut off by themselves. -/
theorem cut_append (s t : List Byte) (h : s.length % 16 = 0) : cut (s ++ t) = cut s ++ cut t := by
  have h1 : s.length = 16 * ((s.length + 15) / 16) := by omega
  rw [cut, cut, cut, ← cutInto_append _ _ _ _ h1]
  congr 1
  simp; omega

/-- A nonempty string's first block, and the rest. -/
theorem cut_eq_cons (s : List Byte) (h : s ≠ []) : cut s = s.take 16 :: cut (s.drop 16) := by
  have : 0 < s.length := List.length_pos_iff.2 h
  rw [cut, show (s.length + 15) / 16 = ((s.drop 16).length + 15) / 16 + 1 by simp; omega, cutInto]
  rfl

@[simp] theorem cut_nil : cut [] = [] := rfl

theorem wholeBlocks_append (s t : List Byte) (h : s.length % 16 = 0) :
    wholeBlocks (s ++ t) = wholeBlocks s ++ wholeBlocks t := by
  simp [wholeBlocks, cut_append s t h]

@[simp] theorem length_wholeBlocks (s : List Byte) : (wholeBlocks s).length = (s.length + 15) / 16 := by
  simp [wholeBlocks]

@[simp] theorem wholeBlocks_bytesOfBlock (b : Block) : wholeBlocks (bytesOfBlock b) = [b] := by
  have h : bytesOfBlock b ≠ [] := by
    intro e
    simpa using congrArg List.length e
  rw [wholeBlocks, cut_eq_cons _ h]
  simp [List.take_of_length_le, List.drop_eq_nil_of_le, blockOfBytes_bytesOfBlock]

end Sys2Proof.Machine
end

