-- ==== Sys2Proof/Laws/Config.lean ====
section
/-! SUPPORT. The bounds of the open capacities, 00_scope.md R7. -/

namespace Sys2Proof.Config

theorem twelve_le_capIv : 12 ≤ capIv := by unfold capIv; omega

theorem capIv_lt : capIv < 2 ^ 32 := by
  have := rawCapIv.isLt
  unfold capIv
  omega

theorem capAad_lt : capAad < 2 ^ 32 := rawCapAad.isLt

theorem sixteen_le_capDin : 16 ≤ capDin := by unfold capDin; omega

theorem capDin_lt : capDin < 2 ^ 32 - 16 := by unfold capDin; omega

@[simp] theorem params_capIv : params.capIv = capIv := rfl
@[simp] theorem params_capAad : params.capAad = capAad := rfl
@[simp] theorem params_capDin : params.capDin = capDin := rfl
@[simp] theorem params_cipher : params.cipher = blockCipher := rfl

end Sys2Proof.Config
end

