-- ==== Sys2Proof/Laws/State.lean ====
section
/-! SUPPORT. One lemma per field per update of the state, and the accessors of registers and buffers after a write. -/

namespace Sys2Proof.Machine

section Fields
variable (s : State)

@[simp] theorem State.setBlk_blk (r : BlkReg) (v : Block) : (s.setBlk r v).blk = s.blk.set r v := rfl
@[simp] theorem State.setBlk_status (r : BlkReg) (v : Block) : (s.setBlk r v).status = s.status := rfl
@[simp] theorem State.setBlk_keylen (r : BlkReg) (v : Block) : (s.setBlk r v).keylen = s.keylen := rfl
@[simp] theorem State.setBlk_ivlen (r : BlkReg) (v : Block) : (s.setBlk r v).ivlen = s.ivlen := rfl
@[simp] theorem State.setBlk_aadlen (r : BlkReg) (v : Block) : (s.setBlk r v).aadlen = s.aadlen := rfl
@[simp] theorem State.setBlk_dinlen (r : BlkReg) (v : Block) : (s.setBlk r v).dinlen = s.dinlen := rfl
@[simp] theorem State.setBlk_doutlen (r : BlkReg) (v : Block) : (s.setBlk r v).doutlen = s.doutlen := rfl
@[simp] theorem State.setBlk_buf (r : BlkReg) (v : Block) : (s.setBlk r v).buf = s.buf := rfl
@[simp] theorem State.setBlk_pending (r : BlkReg) (v : Block) : (s.setBlk r v).pending = s.pending := rfl
@[simp] theorem State.setBlk_answers (r : BlkReg) (v : Block) : (s.setBlk r v).answers = s.answers := rfl
@[simp] theorem State.setBlk_resets (r : BlkReg) (v : Block) : (s.setBlk r v).resets = s.resets := rfl

@[simp] theorem State.setByte_blk (b : Buf) (a : Nat) (v : Byte) : (s.setByte b a v).blk = s.blk := rfl
@[simp] theorem State.setByte_status (b : Buf) (a : Nat) (v : Byte) : (s.setByte b a v).status = s.status := rfl
@[simp] theorem State.setByte_keylen (b : Buf) (a : Nat) (v : Byte) : (s.setByte b a v).keylen = s.keylen := rfl
@[simp] theorem State.setByte_ivlen (b : Buf) (a : Nat) (v : Byte) : (s.setByte b a v).ivlen = s.ivlen := rfl
@[simp] theorem State.setByte_aadlen (b : Buf) (a : Nat) (v : Byte) : (s.setByte b a v).aadlen = s.aadlen := rfl
@[simp] theorem State.setByte_dinlen (b : Buf) (a : Nat) (v : Byte) : (s.setByte b a v).dinlen = s.dinlen := rfl
@[simp] theorem State.setByte_doutlen (b : Buf) (a : Nat) (v : Byte) : (s.setByte b a v).doutlen = s.doutlen := rfl
@[simp] theorem State.setByte_buf (b : Buf) (a : Nat) (v : Byte) : (s.setByte b a v).buf = s.buf.set b ((s.buf.get b).write a v) := rfl
@[simp] theorem State.setByte_pending (b : Buf) (a : Nat) (v : Byte) : (s.setByte b a v).pending = s.pending := rfl
@[simp] theorem State.setByte_answers (b : Buf) (a : Nat) (v : Byte) : (s.setByte b a v).answers = s.answers := rfl
@[simp] theorem State.setByte_resets (b : Buf) (a : Nat) (v : Byte) : (s.setByte b a v).resets = s.resets := rfl

@[simp] theorem State.setBytes_blk (b : Buf) (a : Nat) (v : List Byte) : (s.setBytes b a v).blk = s.blk := rfl
@[simp] theorem State.setBytes_status (b : Buf) (a : Nat) (v : List Byte) : (s.setBytes b a v).status = s.status := rfl
@[simp] theorem State.setBytes_keylen (b : Buf) (a : Nat) (v : List Byte) : (s.setBytes b a v).keylen = s.keylen := rfl
@[simp] theorem State.setBytes_ivlen (b : Buf) (a : Nat) (v : List Byte) : (s.setBytes b a v).ivlen = s.ivlen := rfl
@[simp] theorem State.setBytes_aadlen (b : Buf) (a : Nat) (v : List Byte) : (s.setBytes b a v).aadlen = s.aadlen := rfl
@[simp] theorem State.setBytes_dinlen (b : Buf) (a : Nat) (v : List Byte) : (s.setBytes b a v).dinlen = s.dinlen := rfl
@[simp] theorem State.setBytes_doutlen (b : Buf) (a : Nat) (v : List Byte) : (s.setBytes b a v).doutlen = s.doutlen := rfl
@[simp] theorem State.setBytes_buf (b : Buf) (a : Nat) (v : List Byte) : (s.setBytes b a v).buf = s.buf.set b ((s.buf.get b).writeBytes a v) := rfl
@[simp] theorem State.setBytes_pending (b : Buf) (a : Nat) (v : List Byte) : (s.setBytes b a v).pending = s.pending := rfl
@[simp] theorem State.setBytes_answers (b : Buf) (a : Nat) (v : List Byte) : (s.setBytes b a v).answers = s.answers := rfl
@[simp] theorem State.setBytes_resets (b : Buf) (a : Nat) (v : List Byte) : (s.setBytes b a v).resets = s.resets := rfl

@[simp] theorem State.putDout_blk (r : List Byte) : (s.putDout r).blk = s.blk := rfl
@[simp] theorem State.putDout_status (r : List Byte) : (s.putDout r).status = s.status := rfl
@[simp] theorem State.putDout_keylen (r : List Byte) : (s.putDout r).keylen = s.keylen := rfl
@[simp] theorem State.putDout_ivlen (r : List Byte) : (s.putDout r).ivlen = s.ivlen := rfl
@[simp] theorem State.putDout_aadlen (r : List Byte) : (s.putDout r).aadlen = s.aadlen := rfl
@[simp] theorem State.putDout_dinlen (r : List Byte) : (s.putDout r).dinlen = s.dinlen := rfl
@[simp] theorem State.putDout_doutlen (r : List Byte) : (s.putDout r).doutlen = BitVec.ofNat 32 r.length := rfl
@[simp] theorem State.putDout_buf (r : List Byte) : (s.putDout r).buf = s.buf.set .dout ((s.buf.get .dout).writeBytes 0 r) := rfl
@[simp] theorem State.putDout_pending (r : List Byte) : (s.putDout r).pending = s.pending := rfl
@[simp] theorem State.putDout_answers (r : List Byte) : (s.putDout r).answers = s.answers := rfl
@[simp] theorem State.putDout_resets (r : List Byte) : (s.putDout r).resets = s.resets := rfl

@[simp] theorem State.putTag_blk (tag : List Byte) : (s.putTag tag).blk = s.blk := rfl
@[simp] theorem State.putTag_status (tag : List Byte) : (s.putTag tag).status = s.status := rfl
@[simp] theorem State.putTag_keylen (tag : List Byte) : (s.putTag tag).keylen = s.keylen := rfl
@[simp] theorem State.putTag_ivlen (tag : List Byte) : (s.putTag tag).ivlen = s.ivlen := rfl
@[simp] theorem State.putTag_aadlen (tag : List Byte) : (s.putTag tag).aadlen = s.aadlen := rfl
@[simp] theorem State.putTag_dinlen (tag : List Byte) : (s.putTag tag).dinlen = s.dinlen := rfl
@[simp] theorem State.putTag_doutlen (tag : List Byte) : (s.putTag tag).doutlen = s.doutlen := rfl
@[simp] theorem State.putTag_buf (tag : List Byte) : (s.putTag tag).buf = s.buf.set .tag ((s.buf.get .tag).writeBytes 0 (tag ++ zeros (16 - tag.length))) := rfl
@[simp] theorem State.putTag_pending (tag : List Byte) : (s.putTag tag).pending = s.pending := rfl
@[simp] theorem State.putTag_answers (tag : List Byte) : (s.putTag tag).answers = s.answers := rfl
@[simp] theorem State.putTag_resets (tag : List Byte) : (s.putTag tag).resets = s.resets := rfl

@[simp] theorem State.completeOk_blk : (s.completeOk).blk = s.blk := rfl
@[simp] theorem State.completeOk_status : (s.completeOk).status = statusAfter s.status 0#4 := rfl
@[simp] theorem State.completeOk_keylen : (s.completeOk).keylen = s.keylen := rfl
@[simp] theorem State.completeOk_ivlen : (s.completeOk).ivlen = s.ivlen := rfl
@[simp] theorem State.completeOk_aadlen : (s.completeOk).aadlen = s.aadlen := rfl
@[simp] theorem State.completeOk_dinlen : (s.completeOk).dinlen = s.dinlen := rfl
@[simp] theorem State.completeOk_doutlen : (s.completeOk).doutlen = s.doutlen := rfl
@[simp] theorem State.completeOk_buf : (s.completeOk).buf = s.buf := rfl
@[simp] theorem State.completeOk_pending : (s.completeOk).pending = s.pending := rfl
@[simp] theorem State.completeOk_answers : (s.completeOk).answers = s.answers := rfl
@[simp] theorem State.completeOk_resets : (s.completeOk).resets = s.resets := rfl

@[simp] theorem State.raise_blk (k : ErrorKind) (d : Bool) : (s.raise k d).blk = s.blk := rfl
@[simp] theorem State.raise_status (k : ErrorKind) (d : Bool) : (s.raise k d).status = statusAfter s.status k.code := rfl
@[simp] theorem State.raise_keylen (k : ErrorKind) (d : Bool) : (s.raise k d).keylen = s.keylen := rfl
@[simp] theorem State.raise_ivlen (k : ErrorKind) (d : Bool) : (s.raise k d).ivlen = s.ivlen := rfl
@[simp] theorem State.raise_aadlen (k : ErrorKind) (d : Bool) : (s.raise k d).aadlen = s.aadlen := rfl
@[simp] theorem State.raise_dinlen (k : ErrorKind) (d : Bool) : (s.raise k d).dinlen = s.dinlen := rfl
@[simp] theorem State.raise_doutlen (k : ErrorKind) (d : Bool) : (s.raise k d).doutlen = if d then 0#32 else s.doutlen := rfl
@[simp] theorem State.raise_buf (k : ErrorKind) (d : Bool) : (s.raise k d).buf = s.buf := rfl
@[simp] theorem State.raise_pending (k : ErrorKind) (d : Bool) : (s.raise k d).pending = s.pending := rfl
@[simp] theorem State.raise_answers (k : ErrorKind) (d : Bool) : (s.raise k d).answers = s.answers := rfl
@[simp] theorem State.raise_resets (k : ErrorKind) (d : Bool) : (s.raise k d).resets = s.resets := rfl

@[simp] theorem State.answer_blk (a : Answer) : (s.answer a).blk = s.blk := rfl
@[simp] theorem State.answer_status (a : Answer) : (s.answer a).status = s.status := rfl
@[simp] theorem State.answer_keylen (a : Answer) : (s.answer a).keylen = s.keylen := rfl
@[simp] theorem State.answer_ivlen (a : Answer) : (s.answer a).ivlen = s.ivlen := rfl
@[simp] theorem State.answer_aadlen (a : Answer) : (s.answer a).aadlen = s.aadlen := rfl
@[simp] theorem State.answer_dinlen (a : Answer) : (s.answer a).dinlen = s.dinlen := rfl
@[simp] theorem State.answer_doutlen (a : Answer) : (s.answer a).doutlen = s.doutlen := rfl
@[simp] theorem State.answer_buf (a : Answer) : (s.answer a).buf = s.buf := rfl
@[simp] theorem State.answer_pending (a : Answer) : (s.answer a).pending = s.pending := rfl
@[simp] theorem State.answer_answers (a : Answer) : (s.answer a).answers = a :: s.answers := rfl
@[simp] theorem State.answer_resets (a : Answer) : (s.answer a).resets = s.resets := rfl

end Fields

section Accessors

@[simp] theorem BlockRegs.get_set (x : BlockRegs) (r r' : BlkReg) (v : Block) :
    (x.set r v).get r' = if r' = r then v else x.get r' := by
  cases r <;> cases r' <;> rfl

@[simp] theorem Buffers.get_set (u : Buffers) (b b' : Buf) (m : Memory) :
    (u.set b m).get b' = if b' = b then m else u.get b' := by
  cases b <;> cases b' <;> rfl

@[simp] theorem State.getBlk_setBlk (s : State) (r r' : BlkReg) (v : Block) :
    (s.setBlk r v).getBlk r' = if r' = r then v else s.getBlk r' := by
  simp [State.getBlk]

end Accessors

end Sys2Proof.Machine
end

