-- ==== Sys2Proof/Laws/Flags.lean ====
section
/-! SUPPORT. The fields of STATUS after a completion (60_exceptions.md R184, R185). -/

namespace Sys2Proof.Machine

@[simp] theorem statusCode_statusAfter (w : Word) (c : BitVec 4) : statusCode (statusAfter w c) = c := by
  refine BitVec.eq_of_getLsbD_eq fun i hi => ?_
  interval_cases i <;> simp [statusCode, statusAfter, statusReserved]

@[simp] theorem statusDone_statusAfter (w : Word) (c : BitVec 4) : statusDone (statusAfter w c) = true := by
  simp [statusDone, statusAfter, statusReserved]

@[simp] theorem statusReserved_statusAfter (w : Word) (c : BitVec 4) :
    statusReserved (statusAfter w c) = statusReserved w := by
  refine BitVec.eq_of_getLsbD_eq fun i hi => ?_
  by_cases h : (0xFFFFFEF0#32).getLsbD i = true
  · have h1 : (0x100#32).getLsbD i = false ∧ c.getLsbD i = false := by
      by_cases h4 : i < 4
      · interval_cases i <;> simp at h
      · refine ⟨?_, BitVec.getLsbD_of_ge _ _ (by omega)⟩
        by_contra h5
        have : i = 8 := by
          interval_cases i <;> simp_all
        subst this
        simp at h
    simp [statusReserved, statusAfter, h, h1]
  · simp [statusReserved, h]

@[simp] theorem statusAfter_statusAfter (w : Word) (c d : BitVec 4) :
    statusAfter (statusAfter w c) d = statusAfter w d := by
  rw [statusAfter, statusReserved_statusAfter, ← statusAfter]

@[simp] theorem State.code_completeOk (s : State) : s.completeOk.code = 0#4 := by simp [State.code]
@[simp] theorem State.done_completeOk (s : State) : s.completeOk.done = true := by simp [State.done]
@[simp] theorem State.code_raise (s : State) (k : ErrorKind) (d : Bool) : (s.raise k d).code = k.code := by
  simp [State.code]
@[simp] theorem State.done_raise (s : State) (k : ErrorKind) (d : Bool) : (s.raise k d).done = true := by
  simp [State.done]

/-- No error kind has the code of OK. -/
theorem ErrorKind.code_ne_zero (k : ErrorKind) : k.code ≠ 0#4 := by cases k <;> decide

end Sys2Proof.Machine
end

