-- ==== Sys2Proof/Laws/Gctr.lean ====
section
/-! SUPPORT. The counter-mode key stream: length, and each output byte (43_gctr.md R131). -/

namespace Sys2Proof.Machine

theorem length_gctrFrom (e : Block → Block) (cb : Block) (n : Nat) (s : List Byte) (h : s.length ≤ 16 * n) :
    (gctrFrom e cb (cutInto n s)).length = s.length := by
  induction n generalizing cb s with
  | zero => simp [cutInto, gctrFrom]; omega
  | succ n ih =>
    rw [cutInto, gctrFrom, List.length_append, ih _ _ (by simp; omega)]
    simp [bitlen]
    omega

/-- The output has exactly the input's length, 43_gctr.md R131. -/
@[simp] theorem length_gctr (e : Block → Block) (icb : Block) (s : List Byte) : (gctr e icb s).length = s.length :=
  length_gctrFrom e icb _ s (by omega)

theorem getElem_gctrFrom (e : Block → Block) (cb : Block) (n : Nat) (s : List Byte) (h : s.length ≤ 16 * n) (j : Nat)
    (hj : j < (gctrFrom e cb (cutInto n s)).length) :
    (gctrFrom e cb (cutInto n s))[j] =
      s[j]'(by rw [length_gctrFrom e cb n s h] at hj; exact hj) ^^^ blockByte (e (inc32^[j / 16] cb)) (j % 16) := by
  induction n generalizing cb s j with
  | zero =>
    rw [length_gctrFrom e cb 0 s h] at hj
    omega
  | succ n ih =>
    have hj' : j < s.length := by rw [length_gctrFrom e cb _ s h] at hj; exact hj
    simp only [cutInto, gctrFrom]
    have hl : (xorBytes (s.take 16) (truncate (e cb) (bitlen (s.take 16)))).length = min 16 s.length := by
      simp [bitlen]
    by_cases h1 : j < 16
    · rw [List.getElem_append_left (by omega), getElem_xorBytes, getElem_truncate]
      simp [Nat.div_eq_of_lt h1, Nat.mod_eq_of_lt h1]
    · rw [List.getElem_append_right (by omega), ih]
      · obtain ⟨k, rfl⟩ : ∃ k, j = 16 + k := ⟨j - 16, by omega⟩
        have e1 : 16 + k - (xorBytes (s.take 16) (truncate (e cb) (bitlen (s.take 16)))).length = k := by omega
        have e2 : (16 + k) / 16 = k / 16 + 1 := by omega
        have e3 : (16 + k) % 16 = k % 16 := by omega
        simp only [e1, e2, e3, Function.iterate_succ_apply, List.getElem_drop]
      · simp; omega

end Sys2Proof.Machine
end

