-- ==== Sys2Proof/Laws/Memory.lean ====
section
/-! SUPPORT. Buffers: a read after a write, strings read and written, and the canonical form, which every operation keeps. -/

namespace Sys2Proof.Machine

/-! Reads after writes -/

theorem Memory.read_write (m : Memory) (a a' : Nat) (v : Byte) :
    (m.write a v).read a' = if a' = a then some v else m.read a' := by
  induction m with
  | nil => by_cases h : a = a' <;> simp [Memory.write, Memory.read, h, eq_comm]
  | cons c m ih =>
    obtain ⟨k, w⟩ := c
    unfold Memory.write
    split_ifs with h1 h2 h3 <;> simp only [Memory.read, eq_comm (a := a')] at ih ⊢ <;> split_ifs at ih ⊢ <;>
      first | rfl | omega

theorem Memory.read_writeBytes (m : Memory) (a a' : Nat) (v : List Byte) :
    (m.writeBytes a v).read a' = if h : a ≤ a' ∧ a' - a < v.length then some (v[a' - a]'h.2) else m.read a' := by
  induction v generalizing m a with
  | nil => simp [Memory.writeBytes]
  | cons x v ih =>
    rw [Memory.writeBytes, ih, Memory.read_write]
    by_cases h1 : a' = a
    · subst h1
      simp
    · by_cases h2 : a ≤ a'
      · obtain ⟨k, rfl⟩ : ∃ k, a' = a + 1 + k := ⟨a' - a - 1, by omega⟩
        have e1 : a + 1 + k - (a + 1) = k := by omega
        have e2 : a + 1 + k - a = k + 1 := by omega
        have e3 : a + 1 + k ≠ a := by omega
        have e4 : a ≤ a + 1 + k := by omega
        simp only [e1, e2, e3, e4, List.length_cons, Nat.le_add_right, true_and, if_false, List.getElem_cons_succ,
          Nat.add_lt_add_iff_right]
      · have : ¬ a + 1 ≤ a' := by omega
        simp [h1, h2, this]

/-! Strings -/

/-- A string is read exactly when each of its bytes holds a value, and then it is those bytes. -/
theorem Memory.readBytes_eq_some (m : Memory) (a n : Nat) (v : List Byte) :
    m.readBytes a n = some v ↔ v.length = n ∧ ∀ j (h : j < v.length), m.read (a + j) = some v[j] := by
  induction n generalizing a v with
  | zero =>
    constructor
    · intro h; cases h; simp
    · rintro ⟨h, -⟩
      rw [List.eq_nil_of_length_eq_zero h]; rfl
  | succ n ih =>
    unfold Memory.readBytes
    constructor
    · intro h
      split at h
      · rename_i x xs hx hxs
        cases h
        obtain ⟨hl, hr⟩ := (ih _ _).1 hxs
        refine ⟨by simp [hl], fun j hj => ?_⟩
        cases j with
        | zero => simpa using hx
        | succ j =>
          have := hr j (by simpa using hj)
          rw [show a + (j + 1) = a + 1 + j by omega]
          simpa using this
      · cases h
    · rintro ⟨hl, hr⟩
      cases v with
      | nil => simp at hl
      | cons x xs =>
        have h0 : m.read a = some x := hr 0 (by simp)
        have h1 : m.readBytes (a + 1) n = some xs := by
          refine (ih _ _).2 ⟨by simpa using hl, fun j hj => ?_⟩
          have := hr (j + 1) (by simpa using hj)
          rw [show a + (j + 1) = a + 1 + j by omega] at this
          simpa using this
        rw [h0, h1]

/-- A string is not read exactly when one of its bytes holds no value. -/
theorem Memory.readBytes_eq_none (m : Memory) (a n : Nat) :
    m.readBytes a n = none ↔ ∃ j, j < n ∧ m.read (a + j) = none := by
  induction n generalizing a with
  | zero => simp [Memory.readBytes]
  | succ n ih =>
    unfold Memory.readBytes
    cases h0 : m.read a with
    | none => simp only [true_iff]; exact ⟨0, by omega, by simpa using h0⟩
    | some x =>
      cases h1 : m.readBytes (a + 1) n with
      | none =>
        obtain ⟨j, hj, hr⟩ := (ih _).1 h1
        simp only [true_iff]
        exact ⟨j + 1, by omega, by rw [← hr]; congr 1; omega⟩
      | some xs =>
        simp only [reduceCtorEq, false_iff]
        rintro ⟨j, hj, hr⟩
        cases j with
        | zero => simp [h0] at hr
        | succ j =>
          have : m.readBytes (a + 1) n = none := (ih _).2 ⟨j, by omega, by rw [← hr]; congr 1; omega⟩
          rw [h1] at this
          cases this

/-! The canonical form -/

theorem Memory.mem_write {m : Memory} {a : Nat} {v : Byte} {c : Host.Cell} (h : c ∈ m.write a v) :
    c = (a, v) ∨ c ∈ m := by
  induction m with
  | nil => simpa [Memory.write] using h
  | cons d m ih =>
    obtain ⟨k, w⟩ := d
    unfold Memory.write at h
    split at h
    · simpa using h
    · split at h
      · rcases List.mem_cons.1 h with h | h
        · exact .inl h
        · exact .inr (List.mem_cons_of_mem _ h)
      · rcases List.mem_cons.1 h with h | h
        · exact .inr (h ▸ List.mem_cons_self)
        · exact (ih h).imp_right (List.mem_cons_of_mem _)

theorem Memory.wf_write {m : Memory} (h : m.wf) (a : Nat) (v : Byte) : (m.write a v).wf := by
  induction m with
  | nil => simp [Memory.write, Memory.wf]
  | cons d m ih =>
    obtain ⟨k, w⟩ := d
    obtain ⟨hk, hm⟩ := List.pairwise_cons.1 h
    unfold Memory.write
    split
    · refine List.pairwise_cons.2 ⟨fun c hc => ?_, h⟩
      rcases List.mem_cons.1 hc with rfl | hc
      · assumption
      · exact lt_trans (by assumption) (hk c hc)
    · split
      · rename_i e
        exact List.pairwise_cons.2 ⟨fun c hc => by rw [e]; exact hk c hc, hm⟩
      · refine List.pairwise_cons.2 ⟨fun c hc => ?_, ih hm⟩
        rcases Memory.mem_write hc with rfl | hc
        · show k < a; omega
        · exact hk c hc

theorem Memory.wf_writeBytes {m : Memory} (h : m.wf) (a : Nat) (v : List Byte) : (m.writeBytes a v).wf := by
  induction v generalizing m a with
  | nil => exact h
  | cons x v ih => exact ih (Memory.wf_write h a x) _

/-- A listed offset reads as its entry in the canonical form, so equal readings are equal buffers. -/
theorem Memory.read_of_mem {m : Memory} (h : m.wf) {c : Host.Cell} (hc : c ∈ m) : m.read c.1 = some c.2 := by
  induction m with
  | nil => cases hc
  | cons d m ih =>
    obtain ⟨hk, hm⟩ := List.pairwise_cons.1 h
    rcases List.mem_cons.1 hc with rfl | hc
    · simp [Memory.read]
    · have : d.1 ≠ c.1 := Nat.ne_of_lt (hk c hc)
      simp [Memory.read, this, ih hm hc]

/-! The state's bytes -/

@[simp] theorem State.byte_setBlk (s : State) (r : BlkReg) (v : Block) (b : Buf) (a : Nat) :
    (s.setBlk r v).byte b a = s.byte b a := rfl

@[simp] theorem State.byte_completeOk (s : State) (b : Buf) (a : Nat) : s.completeOk.byte b a = s.byte b a := rfl

@[simp] theorem State.byte_raise (s : State) (k : ErrorKind) (d : Bool) (b : Buf) (a : Nat) :
    (s.raise k d).byte b a = s.byte b a := rfl

theorem State.byte_setByte (s : State) (b b' : Buf) (a a' : Nat) (v : Byte) :
    (s.setByte b a v).byte b' a' = if b' = b ∧ a' = a then some v else s.byte b' a' := by
  by_cases h : b' = b
  · subst h; simp [State.byte, Memory.read_write]
  · simp [State.byte, h]

theorem State.byte_setBytes (s : State) (b b' : Buf) (a a' : Nat) (v : List Byte) :
    (s.setBytes b a v).byte b' a' =
      if h : b' = b ∧ a ≤ a' ∧ a' - a < v.length then some (v[a' - a]'h.2.2) else s.byte b' a' := by
  by_cases h : b' = b
  · subst h; simp [State.byte, Memory.read_writeBytes]
  · simp [State.byte, h]

theorem State.byte_putDout (s : State) (r : List Byte) (b : Buf) (a : Nat) :
    (s.putDout r).byte b a = if h : b = .dout ∧ a < r.length then some (r[a]'h.2) else s.byte b a := by
  have : (s.putDout r).byte b a = (s.setBytes .dout 0 r).byte b a := rfl
  rw [this, State.byte_setBytes]
  simp

theorem State.byte_putTag (s : State) (tag : List Byte) (b : Buf) (a : Nat) :
    (s.putTag tag).byte b a =
      if h : b = .tag ∧ a < tag.length then some (tag[a]'h.2)
      else if b = .tag ∧ a < 16 then some 0#8 else s.byte b a := by
  rw [State.putTag, State.byte_setBytes]
  have hl : (tag ++ zeros (16 - tag.length)).length = tag.length + (16 - tag.length) := by simp [zeros]
  by_cases hb : b = .tag
  · subst hb
    by_cases h1 : a < tag.length
    · rw [dif_pos ⟨rfl, Nat.zero_le _, by omega⟩, dif_pos ⟨rfl, h1⟩]
      simp [List.getElem_append_left h1]
    · have h1' : ¬ (Buf.tag = Buf.tag ∧ a < tag.length) := fun h => h1 h.2
      by_cases h2 : a < 16
      · rw [dif_pos ⟨rfl, Nat.zero_le _, by omega⟩, dif_neg h1', if_pos ⟨rfl, h2⟩]
        simp [List.getElem_append_right (Nat.le_of_not_lt h1), zeros]
      · rw [dif_neg (fun h => by omega), dif_neg h1', if_neg (fun h => h2 h.2)]
  · simp [hb]

/-- What MemRead of a string answers, in terms of the state's bytes. -/
theorem State.bytesAt_eq_ok (s : State) (b : Buf) (a n : Nat) (v : List Byte) :
    s.bytesAt b a n = .ok v ↔ v.length = n ∧ ∀ j (h : j < v.length), s.byte b (a + j) = some v[j] := by
  rw [State.bytesAt]
  have := Memory.readBytes_eq_some (s.buf.get b) a n v
  unfold State.byte
  rw [← this]
  cases (s.buf.get b).readBytes a n <;> simp

/-- MemRead stops exactly on a byte without a value, and names the buffer. -/
theorem State.bytesAt_eq_error (s : State) (b : Buf) (a n : Nat) (f : Fault) :
    s.bytesAt b a n = .error f ↔ f = .unwrittenByte b ∧ ∃ j, j < n ∧ s.byte b (a + j) = none := by
  rw [State.bytesAt]
  have := Memory.readBytes_eq_none (s.buf.get b) a n
  unfold State.byte
  rw [← this]
  cases (s.buf.get b).readBytes a n <;> simp [eq_comm]

end Sys2Proof.Machine
end

