-- ==== Sys2Proof/Laws/Commands.lean ====
section
/-! SUPPORT. What a command can do, said once: the shape of 30_encoding.md R91 inverted, the validations as the causes of
60_exceptions.md R181, and the operands as what the buffers hold. -/

namespace Sys2Proof.Machine

/-! The command shape -/

section Shape
variable {α : Type} {p : Params} {i : Instr} {ops : Except Fault α} {body : α → State} {s t : State}

/-- A command that answers a next state either raised the first failing validation's kind or ran its body on its operands. -/
theorem runCommand_next (h : runCommand p i ops body s = .next t) :
    (∃ k, firstFailure (checksOf p i s) = some k ∧ t = s.raise k (hasDout i)) ∨
      (firstFailure (checksOf p i s) = none ∧ ∃ x, ops = .ok x ∧ t = body x) := by
  unfold runCommand at h
  split at h
  · cases h; exact .inl ⟨_, by assumption, rfl⟩
  · split at h
    · cases h; exact .inr ⟨by assumption, _, rfl, rfl⟩
    · cases h

/-- A command faults exactly when its validations pass and an operand stops. -/
theorem runCommand_fault {f : Fault} :
    runCommand p i ops body s = .fault f ↔ firstFailure (checksOf p i s) = none ∧ ops = .error f := by
  unfold runCommand
  split
  · rename_i k hk
    simp [hk]
  · rename_i hk
    split <;> simp [hk]

theorem runCommand_ne_refused {r : Refusal} : runCommand p i ops body s ≠ .refused r := by
  unfold runCommand
  split
  · simp
  · split <;> simp

theorem runCommand_ok {x : α} (hv : firstFailure (checksOf p i s) = none) (hx : ops = .ok x) :
    runCommand p i ops body s = .next (body x) := by
  simp [runCommand, hv, hx]

theorem runCommand_raise {k : ErrorKind} (hv : firstFailure (checksOf p i s) = some k) :
    runCommand p i ops body s = .next (s.raise k (hasDout i)) := by
  simp [runCommand, hv]

end Shape

/-! Validations -/

theorem exceeds_eq (n cap : Nat) : exceeds n cap = decide (cap < n) := by
  cases n <;> simp [exceeds]

theorem legalKeyLen_eq (n : Nat) : legalKeyLen n = decide (n ∈ [16, 24, 32]) := by
  simp [legalKeyLen, Bool.or_assoc, Bool.decide_or]
  rfl

theorem legalTagLen_eq (t : Nat) : legalTagLen t = decide (t ∈ [96, 104, 112, 120, 128]) := by
  simp [legalTagLen, Bool.or_assoc, Bool.decide_or]
  rfl

/-- The nonce of a byte-counted length is always byte aligned, 42_counter.md R120. -/
theorem checkNonce_fst (s : State) : (checkNonce s).1 = false := by
  simp [checkNonce]

theorem firstFailure_cons (b : Bool) (k : ErrorKind) (cs : List Check) :
    firstFailure ((b, k) :: cs) = if b then some k else firstFailure cs := by
  cases b <;> rfl

/-- The check lists of 30_encoding.md R90 find the code that the causes of 60_exceptions.md R181 in their priority give. -/
theorem validationCode_eq (i : Instr) (s : State) :
    validationCode i s = (firstFailure (checksOf Config.params i s)).map ErrorKind.code := by
  have map_ite : ∀ (c : Prop) [Decidable c] (k : ErrorKind) (r : Option ErrorKind),
      (if c then some k else r).map ErrorKind.code = if c then some k.code else r.map ErrorKind.code := by
    intros
    split <;> rfl
  cases i <;>
    simp only [checksOf, checksAead, checkKey, checkTag, checkFits, checkWholeBlocks, checkCombined, checkNonce, exceeds_eq,
      legalKeyLen_eq, legalTagLen_eq, firstFailure_cons, List.cons_append, List.nil_append, firstFailure, validationCode,
      badKey, badTlen, badOperand, shortCombined, usesKey, usesTlen, usesIv, usesAad, usesDin, Instr.tlen, State.lenOf,
      capacity, Config.params_capIv, Config.params_capAad, Config.params_capDin, map_ite] <;>
    simp only [Bool.false_eq_true, false_and, true_and, false_or, or_false, if_false, reduceCtorEq,
      Bool.not_eq_true', decide_eq_false_iff_not, decide_eq_true_eq, Nat.mul_mod_right, bne_self_eq_false, bne_iff_ne,
      ne_eq, Option.map_none, ErrorKind.code] <;>
    first
    | rfl
    | (repeat' split) <;> first | rfl | (exfalso; omega)

theorem firstFailure_eq_none {i : Instr} {s : State} :
    firstFailure (checksOf Config.params i s) = none ↔ validationCode i s = none := by
  rw [validationCode_eq, Option.map_eq_none_iff]

/-- The validations pass exactly when no cause is present. -/
theorem validationCode_eq_none {i : Instr} {s : State} :
    validationCode i s = none ↔ ¬ badKey i s ∧ ¬ badTlen i ∧ ¬ badOperand i s ∧ ¬ shortCombined i s := by
  unfold validationCode
  by_cases h1 : badKey i s
  · rw [if_pos h1]; exact ⟨(nomatch ·), fun h => absurd h1 h.1⟩
  by_cases h2 : badTlen i
  · rw [if_neg h1, if_pos h2]; exact ⟨(nomatch ·), fun h => absurd h2 h.2.1⟩
  by_cases h3 : badOperand i s
  · rw [if_neg h1, if_neg h2, if_pos h3]; exact ⟨(nomatch ·), fun h => absurd h3 h.2.2.1⟩
  by_cases h4 : shortCombined i s
  · rw [if_neg h1, if_neg h2, if_neg h3, if_pos h4]; exact ⟨(nomatch ·), fun h => absurd h4 h.2.2.2⟩
  rw [if_neg h1, if_neg h2, if_neg h3, if_neg h4]
  exact ⟨fun _ => ⟨h1, h2, h3, h4⟩, fun _ => rfl⟩

/-! Operands -/

theorem State.operand_eq_ok (s : State) (b : Buf) (v : List Byte) : s.operand b = .ok v ↔ HoldsOperand s b v := by
  simp [State.operand, State.bytesAt_eq_ok, HoldsOperand, Holds]

theorem State.operand_eq_error (s : State) (b : Buf) (f : Fault) :
    s.operand b = .error f ↔ f = .unwrittenByte b ∧ ∃ j, j < (s.lenOf b).toNat ∧ s.byte b j = none := by
  simp [State.operand, State.bytesAt_eq_error]

theorem gctrOperands_eq_ok (s : State) (o : GctrOperands) :
    gctrOperands s = .ok o ↔ HoldsOperand s .key o.key ∧ HoldsOperand s .din o.din := by
  obtain ⟨key, din⟩ := o
  rw [← State.operand_eq_ok, ← State.operand_eq_ok]
  unfold gctrOperands
  cases s.operand .key <;> cases s.operand .din <;> simp [bind, Except.bind, pure, Except.pure]

theorem deriveOperands_eq_ok (s : State) (o : DeriveOperands) :
    deriveOperands s = .ok o ↔ HoldsOperand s .key o.key ∧ HoldsOperand s .iv o.iv := by
  obtain ⟨key, iv⟩ := o
  rw [← State.operand_eq_ok, ← State.operand_eq_ok]
  unfold deriveOperands
  cases s.operand .key <;> cases s.operand .iv <;> simp [bind, Except.bind, pure, Except.pure]

theorem tagOperands_eq_ok (s : State) (o : TagOperands) :
    tagOperands s = .ok o ↔ HoldsOperand s .key o.key ∧ HoldsOperand s .aad o.aad ∧ HoldsOperand s .din o.din := by
  obtain ⟨key, aad, din⟩ := o
  rw [← State.operand_eq_ok, ← State.operand_eq_ok, ← State.operand_eq_ok]
  unfold tagOperands
  cases s.operand .key <;> cases s.operand .aad <;> cases s.operand .din <;>
    simp [bind, Except.bind, pure, Except.pure]

theorem aeadOperands_eq_ok (s : State) (o : AeadOperands) :
    aeadOperands s = .ok o ↔
      HoldsOperand s .key o.key ∧ HoldsOperand s .iv o.iv ∧ HoldsOperand s .aad o.aad ∧ HoldsOperand s .din o.din := by
  obtain ⟨key, iv, aad, din⟩ := o
  rw [← State.operand_eq_ok, ← State.operand_eq_ok, ← State.operand_eq_ok, ← State.operand_eq_ok]
  unfold aeadOperands
  cases s.operand .key <;> cases s.operand .iv <;> cases s.operand .aad <;> cases s.operand .din <;>
    simp [bind, Except.bind, pure, Except.pure]

theorem decryptOperands_eq_ok (t : Nat) (s : State) (o : AeadOperands × List Byte) :
    decryptOperands t s = .ok o ↔ aeadOperands s = .ok o.1 ∧ s.bytesAt .tag 0 (t / 8) = .ok o.2 := by
  obtain ⟨o, tag⟩ := o
  unfold decryptOperands
  cases aeadOperands s <;> cases s.bytesAt .tag 0 (t / 8) <;> simp [bind, Except.bind, pure, Except.pure]

/-! Lengths of results -/

theorem length_expectedTag (e : Block → Block) (iv aad c : List Byte) (t : Nat) :
    (expectedTag e iv aad c t).length = min (t / 8) 16 := by
  simp [expectedTag, computeTag]

theorem length_cryptData (e : Block → Block) (iv s : List Byte) : (cryptData e iv s).length = s.length := by
  simp [cryptData]

/-- The tag comparison is equality of the strings, 45_aead_ops.md R153: no byte difference survives the OR. -/
theorem tagDiff_cons (x y : Byte) (a b : List Byte) :
    tagDiff (x :: a) (y :: b) = 0#8 ↔ x = y ∧ tagDiff a b = 0#8 := by
  have key : ∀ (l : List Byte) (c : Byte), l.foldl (· ||| ·) c = 0#8 ↔ c = 0#8 ∧ l.foldl (· ||| ·) 0#8 = 0#8 := by
    intro l
    induction l with
    | nil => simp
    | cons z l ih =>
      intro c
      rw [List.foldl_cons, List.foldl_cons, ih, ih (0#8 ||| z), BitVec.or_eq_zero_iff, BitVec.or_eq_zero_iff]
      tauto
  simp only [tagDiff, xorBytes, List.zipWith_cons_cons, List.foldl_cons]
  rw [key]
  simp [BitVec.xor_eq_zero_iff]

end Sys2Proof.Machine
end

