-- ==== Sys2Proof/Laws/Decode.lean ====
section
/-! SUPPORT. The fields of a command word as numbers, and what a successful decode says about them (30_encoding.md R81, R84). -/

namespace Sys2Proof

theorem fieldOpc_eq (w : Word) : fieldOpc w = w.toNat % 256 := by simp [fieldOpc]

theorem fieldTlen_eq (w : Word) : fieldTlen w = w.toNat / 256 % 256 := by
  simp [fieldTlen, Nat.shiftRight_eq_div_pow]

theorem fieldReserved_eq (w : Word) : fieldReserved w = w.toNat / 65536 := by
  have := w.isLt
  simp [fieldReserved, Nat.shiftRight_eq_div_pow]
  omega

theorem Instr.opcode_lt (i : Instr) : i.opcode < 12 := by cases i <;> simp [Instr.opcode]

theorem toNat_encode {i : Instr} (h : WellFormed i) : (encode i).toNat = i.opcode + 256 * i.tlen := by
  have := i.opcode_lt
  have : i.tlen < 256 := h
  rw [encode, BitVec.toNat_ofNat, Nat.mod_eq_of_lt (by omega)]

/-- A word that decodes has no reserved bit set and carries its command's opcode and tag length. -/
theorem decode_fields {w : Word} {i : Instr} (h : decode w = .ok i) :
    fieldReserved w = 0 ∧ fieldOpc w = i.opcode ∧ fieldTlen w = i.tlen := by
  unfold decode decodeN at h
  split at h
  · cases h
  · refine ⟨by omega, ?_⟩
    split at h <;> (try split at h) <;> cases h <;> exact ⟨by assumption, by first | assumption | rfl⟩

end Sys2Proof
end

