-- ==== Sys2Proof/Laws/Effects.lean ====
section
/-! SUPPORT. Everything a command that answers a next state can have done, said once, and the frames of the operations that write. -/

namespace Sys2Proof.Machine

/-! The step -/

theorem step_nil {s : State} (h : s.pending = []) : step s = .next s := by rw [step, h]

theorem step_cons {s : State} {x : Input} {rest : List Input} (h : s.pending = x :: rest) :
    step s = applyInput x { s with pending := rest } := by
  rw [step, h]

theorem issue_ok {w : Word} {i : Instr} (h : decode w = .ok i) (s : State) : issue w s = exec i s := by
  rw [issue, h]

theorem issue_illegal {w : Word} (h : ∀ i, decode w ≠ .ok i) (s : State) :
    issue w s = .next (s.raise .illegalCommand false) := by
  unfold issue
  split
  · exact absurd (by assumption) (h _)
  · rfl

/-! The effects of the eleven commands -/

/-- The states each command can lead to from s: a raised validation error, or its effect on operands the buffers hold. -/
inductive Effect (s : State) : Instr → State → Prop where
  | raised {i : Instr} {k : ErrorKind} (h : firstFailure (checksOf Config.params i s) = some k) :
      Effect s i (s.raise k (hasDout i))
  | gfmul : Effect s .gfmul (s.setBlk .mz (mul (s.getBlk .mx) (s.getBlk .my))).completeOk
  | ghash {x : List Byte} (hv : validationCode .ghash s = none) (hx : HoldsOperand s .din x) :
      Effect s .ghash (s.setBlk .gy (ghash (s.getBlk .hk) (wholeBlocks x))).completeOk
  | derivej0 {iv : List Byte} (hv : validationCode .derivej0 s = none) (hiv : HoldsOperand s .iv iv) :
      Effect s .derivej0 (s.setBlk .j0 (deriveJ0 (s.getBlk .hk) iv)).completeOk
  | inc32 : Effect s .inc32 (s.setBlk .cb (inc32 (s.getBlk .cb))).completeOk
  | gctr {key x : List Byte} (hv : validationCode .gctr s = none) (hk : HoldsOperand s .key key)
      (hx : HoldsOperand s .din x) :
      Effect s .gctr (s.putDout (gctr (Config.blockCipher key) (s.getBlk .cb) x)).completeOk
  | derivecommon {key iv : List Byte} (hv : validationCode .derivecommon s = none) (hk : HoldsOperand s .key key)
      (hiv : HoldsOperand s .iv iv) :
      Effect s .derivecommon
        ((s.setBlk .hk (hashSubkey (Config.blockCipher key))).setBlk .j0
          (deriveJ0 (hashSubkey (Config.blockCipher key)) iv)).completeOk
  | computetag {t : Nat} {key a c : List Byte} (hv : validationCode (.computetag t) s = none)
      (hk : HoldsOperand s .key key) (ha : HoldsOperand s .aad a) (hc : HoldsOperand s .din c) :
      Effect s (.computetag t)
        (s.putTag (computeTag (Config.blockCipher key) (s.getBlk .hk) (s.getBlk .j0) a c t)).completeOk
  | encrypt {t : Nat} {key iv a p : List Byte} (hv : validationCode (.encrypt t) s = none)
      (ho : aeadOperands s = .ok { key := key, iv := iv, aad := a, din := p }) :
      Effect s (.encrypt t)
        ((s.putDout (cryptData (Config.blockCipher key) iv p)).putTag
          (expectedTag (Config.blockCipher key) iv a (cryptData (Config.blockCipher key) iv p) t)).completeOk
  | decrypt {t : Nat} {key iv a c tag : List Byte} (hv : validationCode (.decrypt t) s = none)
      (ho : aeadOperands s = .ok { key := key, iv := iv, aad := a, din := c }) (hl : tag.length = t / 8)
      (ht : Holds s .tag 0 tag) :
      Effect s (.decrypt t) (verifyAndDecrypt s (Config.blockCipher key) iv a c tag t)
  | encryptappend {t : Nat} {key iv a p : List Byte} (hv : validationCode (.encryptappend t) s = none)
      (ho : aeadOperands s = .ok { key := key, iv := iv, aad := a, din := p }) :
      Effect s (.encryptappend t)
        (s.putDout (cryptData (Config.blockCipher key) iv p ++
          expectedTag (Config.blockCipher key) iv a (cryptData (Config.blockCipher key) iv p) t)).completeOk
  | decryptappended {t : Nat} {key iv a d : List Byte} (hv : validationCode (.decryptappended t) s = none)
      (ho : aeadOperands s = .ok { key := key, iv := iv, aad := a, din := d }) :
      Effect s (.decryptappended t)
        (verifyAndDecrypt s (Config.blockCipher key) iv a (d.take (d.length - t / 8)) (d.drop (d.length - t / 8)) t)

/-- The inversion every claim about a completed command starts from. -/
theorem exec_next {i : Instr} {s t : State} (h : exec i s = .next t) : Effect s i t := by
  cases i with
  | gfmul => cases h; exact .gfmul
  | inc32 => cases h; exact .inc32
  | ghash =>
    rcases runCommand_next h with ⟨k, hk, rfl⟩ | ⟨hn, x, hx, rfl⟩
    · exact .raised hk
    · exact .ghash (firstFailure_eq_none.1 hn) ((State.operand_eq_ok _ _ _).1 hx)
  | derivej0 =>
    rcases runCommand_next h with ⟨k, hk, rfl⟩ | ⟨hn, x, hx, rfl⟩
    · exact .raised hk
    · exact .derivej0 (firstFailure_eq_none.1 hn) ((State.operand_eq_ok _ _ _).1 hx)
  | gctr =>
    rcases runCommand_next h with ⟨k, hk, rfl⟩ | ⟨hn, o, ho, rfl⟩
    · exact .raised hk
    · obtain ⟨h1, h2⟩ := (gctrOperands_eq_ok _ _).1 ho
      exact .gctr (firstFailure_eq_none.1 hn) h1 h2
  | derivecommon =>
    rcases runCommand_next h with ⟨k, hk, rfl⟩ | ⟨hn, o, ho, rfl⟩
    · exact .raised hk
    · obtain ⟨h1, h2⟩ := (deriveOperands_eq_ok _ _).1 ho
      exact .derivecommon (firstFailure_eq_none.1 hn) h1 h2
  | computetag =>
    rcases runCommand_next h with ⟨k, hk, rfl⟩ | ⟨hn, o, ho, rfl⟩
    · exact .raised hk
    · obtain ⟨h1, h2, h3⟩ := (tagOperands_eq_ok _ _).1 ho
      exact .computetag (firstFailure_eq_none.1 hn) h1 h2 h3
  | encrypt =>
    rcases runCommand_next h with ⟨k, hk, rfl⟩ | ⟨hn, o, ho, rfl⟩
    · exact .raised hk
    · exact .encrypt (firstFailure_eq_none.1 hn) ho
  | decrypt =>
    rcases runCommand_next h with ⟨k, hk, rfl⟩ | ⟨hn, o, ho, rfl⟩
    · exact .raised hk
    · obtain ⟨h1, h2⟩ := (decryptOperands_eq_ok _ _ _).1 ho
      obtain ⟨h3, h4⟩ := (State.bytesAt_eq_ok _ _ _ _ _).1 h2
      exact .decrypt (firstFailure_eq_none.1 hn) h1 h3 h4
  | encryptappend =>
    rcases runCommand_next h with ⟨k, hk, rfl⟩ | ⟨hn, o, ho, rfl⟩
    · exact .raised hk
    · exact .encryptappend (firstFailure_eq_none.1 hn) ho
  | decryptappended =>
    rcases runCommand_next h with ⟨k, hk, rfl⟩ | ⟨hn, o, ho, rfl⟩
    · exact .raised hk
    · exact .decryptappended (firstFailure_eq_none.1 hn) ho

theorem exec_ne_refused (i : Instr) (s : State) (r : Refusal) : exec i s ≠ .refused r := by
  cases i with
  | gfmul => intro h; cases h
  | inc32 => intro h; cases h
  | _ => exact runCommand_ne_refused

/-- Verification either decrypts into DOUT or raises AuthenticationFailure. -/
theorem verifyAndDecrypt_cases (s : State) (e : Block → Block) (iv a c tag : List Byte) (t : Nat) :
    verifyAndDecrypt s e iv a c tag t = (s.putDout (cryptData e iv c)).completeOk ∨
      verifyAndDecrypt s e iv a c tag t = s.raise .authenticationFailure true := by
  unfold verifyAndDecrypt
  split
  · exact .inl rfl
  · exact .inr rfl

/-! Frames -/

@[simp] theorem State.getBlk_completeOk (s : State) (r : BlkReg) : s.completeOk.getBlk r = s.getBlk r := rfl
@[simp] theorem State.getBlk_raise (s : State) (k : ErrorKind) (d : Bool) (r : BlkReg) : (s.raise k d).getBlk r = s.getBlk r := rfl
@[simp] theorem State.getBlk_putDout (s : State) (x : List Byte) (r : BlkReg) : (s.putDout x).getBlk r = s.getBlk r := rfl
@[simp] theorem State.getBlk_putTag (s : State) (x : List Byte) (r : BlkReg) : (s.putTag x).getBlk r = s.getBlk r := rfl
@[simp] theorem State.getBlk_setByte (s : State) (b : Buf) (a : Nat) (v : Byte) (r : BlkReg) :
    (s.setByte b a v).getBlk r = s.getBlk r := rfl

/-- The CSRs read as before where STATUS and DOUTLEN do and the length registers are unchanged. -/
theorem keepsCsrs_of {s t : State} {except : List Nat} (h1 : 1 ∈ except ∨ t.status = s.status) (h2 : t.keylen = s.keylen)
    (h3 : t.ivlen = s.ivlen) (h4 : t.aadlen = s.aadlen) (h5 : t.dinlen = s.dinlen)
    (h6 : 6 ∈ except ∨ t.doutlen = s.doutlen) : KeepsCsrs s t except := by
  intro n hn
  match n with
  | 0 => rfl
  | 1 => exact h1.resolve_left hn
  | 2 => exact h2
  | 3 => exact h3
  | 4 => exact h4
  | 5 => exact h5
  | 6 => exact h6.resolve_left hn
  | n + 7 => rfl

theorem Frame.mono {s t : State} {r r' : List BlkReg} {c c' : List Nat} {x x' : Buf → Nat → Prop} (h : Frame s t r c x)
    (hr : ∀ q, q ∈ r → q ∈ r') (hc : ∀ n, n ∈ c → n ∈ c') (hx : ∀ b a, x b a → x' b a) : Frame s t r' c' x' :=
  ⟨fun q hq => h.1 q fun h' => hq (hr q h'), fun n hn => h.2.1 n fun h' => hn (hc n h'),
    fun b a hn => h.2.2.1 b a fun h' => hn (hx b a h'), h.2.2.2⟩

theorem frame_setBlk_completeOk (s : State) (r : BlkReg) (v : Block) : Frame s (s.setBlk r v).completeOk [r] [1] noBytes :=
  ⟨fun r' hr => by simp at hr; simp [hr], keepsCsrs_of (by simp) rfl rfl rfl rfl (by simp), fun _ _ _ => rfl, rfl, rfl,
    rfl⟩

theorem frame_putDout_completeOk (s : State) (r : List Byte) :
    Frame s (s.putDout r).completeOk [] [1, 6] (doutBelow r.length) :=
  ⟨fun _ _ => rfl, keepsCsrs_of (by simp) rfl rfl rfl rfl (by simp),
    fun b a h => by rw [State.byte_completeOk, State.byte_putDout]; exact dif_neg h, rfl, rfl, rfl⟩

theorem State.byte_putTag_of_not {s : State} {tag : List Byte} (hl : tag.length ≤ 16) {b : Buf} {a : Nat}
    (h : ¬ allOfTag b a) : (s.putTag tag).byte b a = s.byte b a := by
  unfold allOfTag at h
  rw [State.byte_putTag, dif_neg fun h' => h ⟨h'.1, by omega⟩, if_neg h]

theorem frame_putTag_completeOk (s : State) (tag : List Byte) (hl : tag.length ≤ 16) :
    Frame s (s.putTag tag).completeOk [] [1] allOfTag :=
  ⟨fun _ _ => rfl, keepsCsrs_of (by simp) rfl rfl rfl rfl (.inr rfl), fun _ _ h => State.byte_putTag_of_not hl h, rfl, rfl,
    rfl⟩

theorem frame_raise (s : State) (k : ErrorKind) (d : Bool) :
    Frame s (s.raise k d) [] (if d then [1, 6] else [1]) noBytes :=
  ⟨fun _ _ => rfl, keepsCsrs_of (by cases d <;> simp) rfl rfl rfl rfl (by cases d <;> simp), fun _ _ _ => rfl, rfl, rfl,
    rfl⟩

theorem completed_completeOk {s u : State} (h : statusReserved u.status = statusReserved s.status) :
    Completed s u.completeOk 0#4 :=
  ⟨by simp, by simp, by simpa using h⟩

theorem raised_raise (s : State) (k : ErrorKind) (d : Bool) : Raised s (s.raise k d) k.code d :=
  ⟨⟨by simp, by simp, by simp⟩, by simp, (frame_raise s k d).mono (by simp) (by cases d <;> simp) fun _ _ h => h⟩

end Sys2Proof.Machine
end

