-- ==== Sys2Proof/Laws/Multiplier.lean ====
section
/-! SUPPORT. The multiplier's iterations: each is linear over XOR in both working registers, and V never depends on X
(40_gf_multiplier.md R104 (a), (d)). -/

namespace Sys2Proof.Machine

theorem mulShift_xor (v w : Block) : mulShift (v ^^^ w) = mulShift v ^^^ mulShift w := by
  unfold mulShift
  rw [BitVec.getLsbD_xor, BitVec.ushiftRight_xor_distrib]
  cases v.getLsbD 0 <;> cases w.getLsbD 0 <;> simp
  · rw [← BitVec.xor_assoc]
  · rw [BitVec.xor_assoc, BitVec.xor_assoc, BitVec.xor_comm reductionR]
  · rw [show v >>> 1 ^^^ reductionR ^^^ (w >>> 1 ^^^ reductionR) = v >>> 1 ^^^ w >>> 1 ^^^ (reductionR ^^^ reductionR) by
      ac_rfl]
    simp

@[simp] theorem mulShift_zero : mulShift 0#128 = 0#128 := by decide

/-- The result of n iterations does not depend on the multiplier bits above n, and adds up over the accumulator. -/
theorem mulIter_z_xor (x z z' v v' : Block) (n : Nat) :
    (mulIter x n { z := z ^^^ z', v := v ^^^ v' }).z =
      (mulIter x n { z := z, v := v }).z ^^^ (mulIter x n { z := z', v := v' }).z := by
  induction n generalizing z z' v v' with
  | zero => rfl
  | succ n ih =>
    simp only [mulIter, mulStep]
    cases x.getLsbD n
    · simp only [mulShift_xor, Bool.false_eq_true, if_false]
      exact ih _ _ _ _
    · simp only [mulShift_xor, if_true]
      rw [show z ^^^ z' ^^^ (v ^^^ v') = (z ^^^ v) ^^^ (z' ^^^ v') by ac_rfl]
      exact ih _ _ _ _

/-- With nothing in V, the accumulator stays as it is. -/
theorem mulIter_zero_v (x z : Block) (n : Nat) : (mulIter x n { z := z, v := 0#128 }).z = z := by
  induction n generalizing z with
  | zero => rfl
  | succ n ih => simp [mulIter, mulStep, ih]

/-- The accumulator only adds to the result. -/
theorem mulIter_z (x z v : Block) (n : Nat) :
    (mulIter x n { z := z, v := v }).z = z ^^^ (mulIter x n { z := 0#128, v := v }).z := by
  have := mulIter_z_xor x z 0#128 0#128 v n
  simpa [mulIter_zero_v] using this

end Sys2Proof.Machine
end

