-- ==== Sys2Proof/Laws/PerInstr.lean ====
section
/-! SUPPORT. Statements made once for each command: the encoding lies in the command's own row of the opcode map
(30_encoding.md R83). -/

namespace Sys2Proof.Laws.EncodingInRow

/-- The word of a well-formed command selects the command's row. -/
def Statement (i : Instr) : Prop := WellFormed i → i.row.selects (encode i) = true

theorem gfmul : Statement .gfmul := fun _ => by decide
theorem ghash : Statement .ghash := fun _ => by decide
theorem derivej0 : Statement .derivej0 := fun _ => by decide
theorem inc32 : Statement .inc32 := fun _ => by decide
theorem gctr : Statement .gctr := fun _ => by decide
theorem derivecommon : Statement .derivecommon := fun _ => by decide

/-- The mask of a format-T row drops the TLEN field. -/
theorem masked (opc t : Nat) (h : opc < 256) (ht : t < 256) :
    (BitVec.ofNat 32 (opc + 256 * t)) &&& 0xFFFF00FF#32 = BitVec.ofNat 32 opc := by
  have hm : (0xFFFF00FF#32 : BitVec 32) = ~~~(0x0000FF00#32) := by decide
  refine BitVec.eq_of_getLsbD_eq fun i hi => ?_
  have h1 : opc + 256 * t = 2 ^ 8 * t + opc := by omega
  have h2 : (2 ^ 8 * t + opc).testBit i = if i < 8 then opc.testBit i else t.testBit (i - 8) :=
    Nat.testBit_two_pow_mul_add t (b := opc) (i := 8) h i
  have h3 : 8 ≤ i → opc.testBit i = false := fun hi8 =>
    Nat.testBit_lt_two_pow (lt_of_lt_of_le h (by simpa using Nat.pow_le_pow_right (show 0 < 2 by omega) hi8))
  have h4 : 16 ≤ i → t.testBit (i - 8) = false := fun hi16 =>
    Nat.testBit_lt_two_pow
      (lt_of_lt_of_le ht (by simpa using Nat.pow_le_pow_right (show 0 < 2 by omega) (show 8 ≤ i - 8 by omega)))
  have h5 : ∀ j, j < 32 → (0xFFFF00FF#32).getLsbD j = (decide (j < 8) || decide (16 ≤ j)) := by decide
  rw [BitVec.getLsbD_and, h5 i hi, h1]
  simp only [BitVec.getLsbD_ofNat, hi, decide_true, Bool.true_and, h2]
  by_cases h8 : i < 8
  · simp [h8]
  · by_cases h16 : 16 ≤ i
    · simp [h8, h16, h4 h16, h3 (by omega)]
    · simp [h8, h16, h3 (by omega)]

theorem computetag (t : Nat) : Statement (.computetag t) := fun h => beq_iff_eq.2 (masked 7 t (by omega) h)
theorem encrypt (t : Nat) : Statement (.encrypt t) := fun h => beq_iff_eq.2 (masked 8 t (by omega) h)
theorem decrypt (t : Nat) : Statement (.decrypt t) := fun h => beq_iff_eq.2 (masked 9 t (by omega) h)
theorem encryptappend (t : Nat) : Statement (.encryptappend t) := fun h => beq_iff_eq.2 (masked 10 t (by omega) h)
theorem decryptappended (t : Nat) : Statement (.decryptappended t) := fun h => beq_iff_eq.2 (masked 11 t (by omega) h)

end Sys2Proof.Laws.EncodingInRow
end

