-- ==== Sys2Proof/Laws/Ready.lean ====
section
/-! SUPPORT. Commands whose operands are in the buffers and legal: the next state each of them answers, and what its results hold. -/

namespace Sys2Proof.Machine

theorem capDin_add_lt : Config.capDin + 16 < 2 ^ 32 := by
  have := Config.capDin_lt
  omega

/-- The validations of a command pass when every length it uses is legal. -/
theorem validationCode_eq_none_of {i : Instr} {s : State} (hk : usesKey i = true → s.keylen.toNat ∈ [16, 24, 32])
    (ht : usesTlen i = true → i.tlen ∈ [96, 104, 112, 120, 128]) (hiv : usesIv i = true → s.ivlen.toNat ≤ Config.capIv)
    (ha : usesAad i = true → s.aadlen.toNat ≤ Config.capAad) (hd : usesDin i = true → s.dinlen.toNat ≤ Config.capDin)
    (hg : i = .ghash → s.dinlen.toNat % 16 = 0) (hs : i = .decryptappended i.tlen → i.tlen / 8 ≤ s.dinlen.toNat) :
    validationCode i s = none := by
  refine validationCode_eq_none.2 ⟨fun h => h.2 (hk h.1), fun h => h.2 (ht h.1), ?_, fun h => ?_⟩
  · rintro (h | h | h | h)
    · exact absurd (hiv h.1) (Nat.not_le.2 h.2)
    · exact absurd (ha h.1) (Nat.not_le.2 h.2)
    · exact absurd (hd h.1) (Nat.not_le.2 h.2)
    · exact h.2 (hg h.1)
  · exact absurd (hs h.1) (Nat.not_le.2 h.2)

/-! What results hold -/

theorem holds_putDout (s : State) (r : List Byte) : Holds (s.putDout r).completeOk .dout 0 r := by
  intro j hj
  rw [State.byte_completeOk, State.byte_putDout]
  simp [hj]

theorem holdsResult_putDout (s : State) (r : List Byte) (h : r.length < 2 ^ 32) : HoldsResult (s.putDout r).completeOk r :=
  ⟨by simp; exact h, holds_putDout s r⟩

theorem holdsTag_putTag (s : State) (tag : List Byte) : HoldsTag (s.putTag tag).completeOk tag := by
  refine ⟨fun j hj => ?_, fun a h1 h2 => ?_⟩
  · rw [State.byte_completeOk, State.byte_putTag]
    simp [hj]
  · rw [State.byte_completeOk, State.byte_putTag]
    simp [h2, Nat.not_lt.2 h1]

theorem length_expectedTag_le (e : Block → Block) (iv a c : List Byte) (t : Nat) : (expectedTag e iv a c t).length ≤ 16 := by
  rw [length_expectedTag]
  omega

theorem length_computeTag_le (e : Block → Block) (h j0 : Block) (a c : List Byte) (t : Nat) :
    (computeTag e h j0 a c t).length ≤ 16 := by
  simp [computeTag]

/-- Two strings a buffer holds at one place and of one length are equal. -/
theorem Holds.unique {s : State} {b : Buf} {a : Nat} {v w : List Byte} (hv : Holds s b a v) (hw : Holds s b a w)
    (h : v.length = w.length) : v = w := by
  refine List.ext_getElem h fun j h1 h2 => ?_
  have := (hv j h1).symm.trans (hw j h2)
  simpa using this

theorem HoldsResult.unique {s : State} {v w : List Byte} (hv : HoldsResult s v) (hw : HoldsResult s w) : v = w :=
  Holds.unique hv.2 hw.2 (hv.1.symm.trans hw.1)

/-! The primitive commands on legal operands -/

theorem exec_gctr_of {s : State} {key x : List Byte} (hk : HoldsOperand s .key key) (hx : HoldsOperand s .din x)
    (h1 : key.length ∈ [16, 24, 32]) (h2 : x.length ≤ Config.capDin) :
    exec .gctr s = .next (s.putDout (gctr (Config.blockCipher key) (s.getBlk .cb) x)).completeOk := by
  have hv : validationCode .gctr s = none :=
    validationCode_eq_none_of (fun _ => hk.1 ▸ h1) (nomatch ·) (nomatch ·) (nomatch ·) (fun _ => hx.1 ▸ h2) (nomatch ·)
      (nomatch ·)
  show gctrOn Config.params s = _
  rw [gctrOn, runCommand_ok (firstFailure_eq_none.2 hv) ((gctrOperands_eq_ok s { key := key, din := x }).2 ⟨hk, hx⟩)]
  simp only [Config.params_cipher]

theorem exec_derivecommon_of {s : State} {key iv : List Byte} (hk : HoldsOperand s .key key) (hiv : HoldsOperand s .iv iv)
    (h1 : key.length ∈ [16, 24, 32]) (h2 : iv.length ≤ Config.capIv) :
    exec .derivecommon s = .next
      ((s.setBlk .hk (hashSubkey (Config.blockCipher key))).setBlk .j0
        (deriveJ0 (hashSubkey (Config.blockCipher key)) iv)).completeOk := by
  have hv : validationCode .derivecommon s = none :=
    validationCode_eq_none_of (fun _ => hk.1 ▸ h1) (nomatch ·) (fun _ => hiv.1 ▸ h2) (nomatch ·) (nomatch ·) (nomatch ·)
      (nomatch ·)
  show derivecommonOn Config.params s = _
  rw [derivecommonOn,
    runCommand_ok (firstFailure_eq_none.2 hv) ((deriveOperands_eq_ok s { key := key, iv := iv }).2 ⟨hk, hiv⟩)]
  simp only [Config.params_cipher]

theorem exec_computetag_of {s : State} {t : Nat} {key a c : List Byte} (hk : HoldsOperand s .key key)
    (ha : HoldsOperand s .aad a) (hc : HoldsOperand s .din c) (h1 : key.length ∈ [16, 24, 32])
    (ht : t ∈ [96, 104, 112, 120, 128]) (h2 : a.length ≤ Config.capAad) (h3 : c.length ≤ Config.capDin) :
    exec (.computetag t) s = .next
      (s.putTag (computeTag (Config.blockCipher key) (s.getBlk .hk) (s.getBlk .j0) a c t)).completeOk := by
  have hv : validationCode (.computetag t) s = none :=
    validationCode_eq_none_of (fun _ => hk.1 ▸ h1) (fun _ => ht) (nomatch ·) (fun _ => ha.1 ▸ h2) (fun _ => hc.1 ▸ h3)
      (nomatch ·) (nomatch ·)
  show computetagOn Config.params t s = _
  rw [computetagOn,
    runCommand_ok (firstFailure_eq_none.2 hv) ((tagOperands_eq_ok s { key := key, aad := a, din := c }).2 ⟨hk, ha, hc⟩)]
  simp only [Config.params_cipher]

/-! The one-shot commands on ready operands -/

section Ready
variable {s : State} {t : Nat} {key iv aad din : List Byte}

theorem AeadReady.operands (h : AeadReady s t key iv aad din) :
    aeadOperands s = .ok { key := key, iv := iv, aad := aad, din := din } :=
  (aeadOperands_eq_ok _ _).2 ⟨h.keyHeld, h.ivHeld, h.aadHeld, h.dinHeld⟩

theorem AeadReady.validates (h : AeadReady s t key iv aad din) {i : Instr}
    (hi : i = .encrypt t ∨ i = .decrypt t ∨ i = .encryptappend t ∨ (i = .decryptappended t ∧ t / 8 ≤ din.length)) :
    firstFailure (checksOf Config.params i s) = none := by
  have e1 : key.length = s.keylen.toNat := h.keyHeld.1
  have e2 : iv.length = s.ivlen.toNat := h.ivHeld.1
  have e3 : aad.length = s.aadlen.toNat := h.aadHeld.1
  have e4 : din.length = s.dinlen.toNat := h.dinHeld.1
  rw [firstFailure_eq_none]
  refine validationCode_eq_none_of (fun _ => e1 ▸ h.keyLegal) (fun _ => ?_) (fun _ => e2 ▸ h.ivFits) (fun _ => e3 ▸ h.aadFits)
    (fun _ => e4 ▸ h.dinFits) (fun hg => ?_) (fun hs => ?_)
  · rcases hi with rfl | rfl | rfl | ⟨rfl, -⟩ <;> exact h.tagLegal
  · rcases hi with rfl | rfl | rfl | ⟨rfl, -⟩ <;> cases hg
  · rcases hi with rfl | rfl | rfl | ⟨rfl, hl⟩
    · cases hs
    · cases hs
    · cases hs
    · exact e4 ▸ hl

theorem AeadReady.exec_encrypt (h : AeadReady s t key iv aad din) :
    exec (.encrypt t) s = .next
      ((s.putDout (cryptData (Config.blockCipher key) iv din)).putTag
        (expectedTag (Config.blockCipher key) iv aad (cryptData (Config.blockCipher key) iv din) t)).completeOk := by
  show encryptOn Config.params t s = _
  rw [encryptOn, runCommand_ok (h.validates (.inl rfl)) h.operands]
  simp only [Config.params_cipher]

theorem AeadReady.exec_decrypt (h : AeadReady s t key iv aad din) {tag : List Byte} (hl : tag.length = t / 8)
    (ht : Holds s .tag 0 tag) :
    exec (.decrypt t) s = .next (verifyAndDecrypt s (Config.blockCipher key) iv aad din tag t) := by
  have ho : decryptOperands t s = .ok ({ key := key, iv := iv, aad := aad, din := din }, tag) :=
    (decryptOperands_eq_ok _ _ _).2 ⟨h.operands, (State.bytesAt_eq_ok _ _ _ _ _).2 ⟨hl, ht⟩⟩
  show decryptOn Config.params t s = _
  rw [decryptOn, runCommand_ok (h.validates (.inr (.inl rfl))) ho]
  simp only [Config.params_cipher]

theorem AeadReady.exec_encryptappend (h : AeadReady s t key iv aad din) :
    exec (.encryptappend t) s = .next
      (s.putDout (cryptData (Config.blockCipher key) iv din ++
        expectedTag (Config.blockCipher key) iv aad (cryptData (Config.blockCipher key) iv din) t)).completeOk := by
  show encryptappendOn Config.params t s = _
  rw [encryptappendOn, runCommand_ok (h.validates (.inr (.inr (.inl rfl)))) h.operands]
  simp only [Config.params_cipher]

theorem AeadReady.exec_decryptappended (h : AeadReady s t key iv aad din) (hl : t / 8 ≤ din.length) :
    exec (.decryptappended t) s = .next
      (verifyAndDecrypt s (Config.blockCipher key) iv aad (din.take (din.length - t / 8)) (din.drop (din.length - t / 8))
        t) := by
  show decryptappendedOn Config.params t s = _
  rw [decryptappendedOn, runCommand_ok (h.validates (.inr (.inr (.inr ⟨rfl, hl⟩)))) h.operands]
  simp only [Config.params_cipher]

end Ready

end Sys2Proof.Machine
end

