-- ==== Sys2Proof/Tests/Slice0.lean ====
section
/-! SUPPORT. Tests: ill-formed commands, words written out from 30_encoding.md R81 and R83, one step of each command on vectors of
95_test_vectors.md, and for every claim with hypotheses a state that meets them. -/

namespace Sys2Proof.Tests

open Sys2Proof Sys2Proof.Machine

/-! WellFormed refuses a tag length that has no encoding (30_encoding.md R82) -/

theorem test_wellFormed_computetag : WellFormed (.computetag 255) ∧ ¬ WellFormed (.computetag 256) := by decide
theorem test_wellFormed_encrypt : WellFormed (.encrypt 255) ∧ ¬ WellFormed (.encrypt 256) := by decide
theorem test_wellFormed_decrypt : WellFormed (.decrypt 0) ∧ ¬ WellFormed (.decrypt 256) := by decide
theorem test_wellFormed_encryptappend : WellFormed (.encryptappend 128) ∧ ¬ WellFormed (.encryptappend 384) := by decide
theorem test_wellFormed_decryptappended : WellFormed (.decryptappended 96) ∧ ¬ WellFormed (.decryptappended 256) := by decide

/-! Words written out bit by bit: reserved (16 bits), TLEN or zero (8 bits), OPC (8 bits), 30_encoding.md R81, R83 -/

theorem test_decode_gfmul : decodeTableWord 32 0b00000000000000000000000000000001 = some .gfmul := by decide
theorem test_decode_ghash : decodeTableWord 32 0b00000000000000000000000000000010 = some .ghash := by decide
theorem test_decode_derivej0 : decodeTableWord 32 0b00000000000000000000000000000011 = some .derivej0 := by decide
theorem test_decode_inc32 : decodeTableWord 32 0b00000000000000000000000000000100 = some .inc32 := by decide
theorem test_decode_gctr : decodeTableWord 32 0b00000000000000000000000000000101 = some .gctr := by decide
theorem test_decode_derivecommon : decodeTableWord 32 0b00000000000000000000000000000110 = some .derivecommon := by decide
theorem test_decode_computetag : decodeTableWord 32 0b00000000000000001000000000000111 = some (.computetag 128) := by decide
theorem test_decode_encrypt : decodeTableWord 32 0b00000000000000000110000000001000 = some (.encrypt 96) := by decide
theorem test_decode_decrypt : decodeTableWord 32 0b00000000000000000111100000001001 = some (.decrypt 120) := by decide
theorem test_decode_encryptappend :
    decodeTableWord 32 0b00000000000000000110100000001010 = some (.encryptappend 104) := by decide
theorem test_decode_decryptappended :
    decodeTableWord 32 0b00000000000000000111000000001011 = some (.decryptappended 112) := by decide

/-- 95_test_vectors.md section 9, the illegal row. -/
theorem test_decode_illegal :
    [0x00000000, 0x0000000C, 0x000000FF, 0x00000106, 0x00010008, 0x80000001, 0xFFFFFFFF].map (decodeTableWord 32) =
      List.replicate 7 none := by decide

/-! Small states -/

/-- A buffer that holds a string from offset 0. -/
def store (v : List Byte) : Memory := Memory.writeBytes [] 0 v

/-- Every register 0 and no buffer byte with a value. -/
def blank : State :=
  { blk := { mx := 0#128, my := 0#128, mz := 0#128, hk := 0#128, j0 := 0#128, cb := 0#128, gy := 0#128 }
    status := 0#32, keylen := 0#32, ivlen := 0#32, aadlen := 0#32, dinlen := 0#32, doutlen := 0#32
    buf := { key := [], iv := [], aad := [], din := [], dout := [], tag := [] }
    pending := [], answers := [], resets := 0 }

/-- Four operands in their buffers with their lengths, and the first bytes of TAG. -/
def loaded (key iv aad din tag : List Byte) : State :=
  { blank with
    keylen := BitVec.ofNat 32 key.length
    ivlen := BitVec.ofNat 32 iv.length
    aadlen := BitVec.ofNat 32 aad.length
    dinlen := BitVec.ofNat 32 din.length
    buf := { key := store key, iv := store iv, aad := store aad, din := store din, dout := [], tag := store tag } }

/-- A machine with one input waiting. -/
def waiting (x : Input) : State := { blank with pending := [x] }

/-- What f says of the next state, if there is one. -/
def after {α : Type} (r : Result) (f : State → α) : Option α :=
  match r with
  | .next t => some (f t)
  | .fault _ => none
  | .refused _ => none

/-- STATUS, DOUTLEN and the bytes of DOUT. -/
def outcome (t : State) : Word × Word × Memory := (t.status, t.doutlen, t.buf.dout)

/-- The pairs of E that 95_test_vectors.md lists for K0 (sections 1 and 5) and one for K3. -/
def tableE (key : List Byte) (b : Block) : Block :=
  if key = zeros 16 then
    if b = 0#128 then 0x66e94bd4ef8a2c3b884cfa59ca342b2e#128
    else if b = 1#128 then 0x58e2fccefa7e3061367f1d57a4e7455a#128
    else if b = 2#128 then 0x0388dace60b6a392f328c2b971b2fe78#128
    else if b = 0xfffffffe#128 then 0x2bdcf387424732cbef019d2bc2c03743#128
    else if b = 0xffffffff#128 then 0x28c16380c491088ca019f8a76853b1e8#128
    else 0#128
  else if b = 0#128 then 0xb83b533708bf535d0aa6e52980d53b78#128
  else 0#128

/-- The instance of the capacity rows of 95_test_vectors.md section 8. -/
def p80 : Params := { capIv := 64, capAad := 32, capDin := 80, cipher := tableE }

def k0 : List Byte := zeros 16
def k3 : List Byte := bytesOfBlock 0xfeffe9928665731c6d6a8f9467308308#128
def iv64 : List Byte := (bytesOfBlock 0xcafebabefacedbad0000000000000000#128).take 8
def c5 : List Byte := [0x02#8, 0x8a#8, 0xd9#8, 0xca#8, 0x65#8]
def p5 : List Byte := [0x01#8, 0x02#8, 0x03#8, 0x04#8, 0x05#8]
def aabbcc : List Byte := [0xaa#8, 0xbb#8, 0xcc#8]
def c16 : List Byte := bytesOfBlock 0x0388dace60b6a392f328c2b971b2fe78#128
def tagS2 : List Byte := bytesOfBlock 0xab6e47d42cec13bdf53a67b21257bddf#128
def tagA8 : List Byte := bytesOfBlock 0xb3b5cf404863448886cf666d3052a677#128

/-! One step of each command, from 95_test_vectors.md -/

/-- M12. -/
theorem test_gfmul_M12 :
    after (execGfmul ((blank.setBlk .mx 0x0388dace60b6a392f328c2b971b2fe78#128).setBlk .my
      0x66e94bd4ef8a2c3b884cfa59ca342b2e#128)) (fun t => (t.status, t.getBlk .mz)) =
      some (0x100#32, 0x5e2ec746917062882c85b0685353deb7#128) := by decide +kernel

/-- M19, the first and last bit of X. -/
theorem test_gfmul_M19 :
    after (execGfmul ((blank.setBlk .mx 0x80000000000000000000000000000001#128).setBlk .my 3#128)) (·.getBlk .mz) =
      some 0xe8180000000000000000000000000007#128 := by decide +kernel

/-- G4. -/
theorem test_ghash_G4 :
    after (ghashOn p80 ((loaded [] [] [] (c16 ++ bytesOfBlock 0x80#128) []).setBlk .hk
      0x66e94bd4ef8a2c3b884cfa59ca342b2e#128)) (fun t => (t.status, t.getBlk .gy)) =
      some (0x100#32, 0xf38cbb1ad69223dcc3457ae5b6b0f885#128) := by decide +kernel

/-- X9: ragged input. -/
theorem test_ghash_X9 :
    after (ghashOn p80 (blank.setCsr 5 17#32)) (fun t => (t.status, t.getBlk .gy)) = some (0x106#32, 0#128) := by decide

/-- J3: not 96 bits. -/
theorem test_derivej0_J3 :
    after (derivej0On p80 ((loaded [] iv64 [] [] []).setBlk .hk 0xb83b533708bf535d0aa6e52980d53b78#128))
      (fun t => (t.status, t.getBlk .j0)) = some (0x100#32, 0xc43a83c4c4badec4354ca984db252f7d#128) := by decide +kernel

/-- J6: a whole block still gets the block with the length. -/
theorem test_derivej0_J6 :
    after (derivej0On p80 ((loaded [] (bytesOfBlock 0xcafebabefacedbaddecaf888deadbeef#128) [] [] []).setBlk .hk
      0xb83b533708bf535d0aa6e52980d53b78#128)) (·.getBlk .j0) =
      some 0x03d36e0fe849e2b14e3970f9407a3115#128 := by decide +kernel

/-- I3: wrap, no carry into byte 11. -/
theorem test_inc32_I3 :
    after (execInc32 (blank.setBlk .cb 0xffffffffffffffffffffffffffffffff#128)) (fun t => (t.status, t.getBlk .cb)) =
      some (0x100#32, 0xffffffffffffffffffffffff00000000#128) := by decide

/-- I7: carry between bytes 15 and 14. -/
theorem test_inc32_I7 : after (execInc32 (blank.setBlk .cb 0xff#128)) (·.getBlk .cb) = some 0x100#128 := by decide

/-- T3: a partial block. -/
theorem test_gctr_T3 :
    after (gctrOn p80 ((loaded k0 [] [] p5 []).setBlk .cb 2#128)) (fun t => (outcome t, t.getBlk .cb)) =
      some ((0x100#32, 5#32, store c5), 2#128) := by decide +kernel

/-- T5: the counter wraps inside a run, with one byte in the third block. -/
theorem test_gctr_T5 :
    after (gctrOn p80 ((loaded k0 [] [] (zeros 33) []).setBlk .cb 0xfffffffe#128)) outcome =
      some (0x100#32, 33#32, store (bytesOfBlock 0x2bdcf387424732cbef019d2bc2c03743#128 ++
        bytesOfBlock 0x28c16380c491088ca019f8a76853b1e8#128 ++ [0x66#8])) := by decide +kernel

/-- Q3. -/
theorem test_derivecommon_Q3 :
    after (derivecommonOn p80 (loaded k3 iv64 [] [] [])) (fun t => (t.status, t.getBlk .hk, t.getBlk .j0)) =
      some (0x100#32, 0xb83b533708bf535d0aa6e52980d53b78#128, 0xc43a83c4c4badec4354ca984db252f7d#128) := by
  decide +kernel

/-- X18's key length with DERIVECOMMON: HK and J0 unchanged, DOUTLEN not among its outputs. -/
theorem test_derivecommon_badKey :
    after (derivecommonOn p80 (blank.setCsr 2 33#32)) (fun t => (t.status, t.blk)) = some (0x101#32, blank.blk) := by decide

/-- Q9: both segments padded, the tag cut to 96 bits and zero-filled over old bytes. -/
theorem test_computetag_Q9 :
    after (computetagOn p80 96 (((loaded k0 [] aabbcc c5 tagS2).setBlk .hk 0x66e94bd4ef8a2c3b884cfa59ca342b2e#128).setBlk
      .j0 1#128)) (fun t => (t.status, t.buf.tag)) = some (0x100#32, store (tagA8.take 12 ++ zeros 4)) := by
  decide +kernel

/-- X17: the key is validated; DOUTLEN and TAG unchanged. -/
theorem test_computetag_X17 :
    after (computetagOn p80 128 (loaded (zeros 20) [] [] [] tagS2)) (fun t => (t.status, t.buf.tag)) =
      some (0x101#32, store tagS2) := by decide +kernel

/-- S2. -/
theorem test_encrypt_S2 :
    after (encryptOn p80 128 (loaded k0 (zeros 12) [] (zeros 16) [])) (fun t => (outcome t, t.buf.tag)) =
      some ((0x100#32, 16#32, store c16), store tagS2) := by decide +kernel

/-- X3, X4: the key check comes before the tag length. -/
theorem test_encrypt_X3_X4 :
    after (encryptOn p80 100 (blank.setCsr 2 15#32)) (·.status) = some 0x101#32 ∧
      after (encryptOn p80 100 (blank.setCsr 2 16#32)) (·.status) = some 0x102#32 := by decide

/-- A14: a 96-bit tag of which no further byte is read. -/
theorem test_decrypt_A14 :
    after (decryptOn p80 96 (loaded k0 (zeros 12) [] c16 (tagS2.take 12))) outcome =
      some (0x100#32, 16#32, store (zeros 16)) := by decide +kernel

/-- A3: one bit of the tag flipped; no byte of DOUT. -/
theorem test_decrypt_A3 :
    after (decryptOn p80 128 (loaded k0 (zeros 12) [] c16 (bytesOfBlock 0x2b6e47d42cec13bdf53a67b21257bddf#128))) outcome =
      some (0x103#32, 0#32, []) := by decide +kernel

/-- A8, TLEN 104. -/
theorem test_encryptappend_A8 :
    after (encryptappendOn p80 104 (loaded k0 (zeros 12) aabbcc p5 [])) (fun t => (outcome t, t.buf.tag)) =
      some ((0x100#32, 18#32, store (c5 ++ tagA8.take 13)), []) := by decide +kernel

/-- X10: DINLEN above CAP_DIN. -/
theorem test_encryptappend_X10 :
    after (encryptappendOn p80 128 (((blank.setCsr 2 16#32).setCsr 3 12#32).setCsr 5 81#32)) outcome =
      some (0x106#32, 0#32, []) := by decide

/-- A8, TLEN 112. -/
theorem test_decryptappended_A8 :
    after (decryptappendedOn p80 112 (loaded k0 (zeros 12) aabbcc (c5 ++ tagA8.take 14) [])) outcome =
      some (0x100#32, 5#32, store p5) := by decide +kernel

/-- A15: a wrong TLEN moves the split point; X11: a Combined shorter than the tag. -/
theorem test_decryptappended_A15_X11 :
    after (decryptappendedOn p80 96 (loaded k0 (zeros 12) aabbcc (c5 ++ tagA8) [])) outcome = some (0x103#32, 0#32, []) ∧
      after (decryptappendedOn p80 96 (((blank.setCsr 2 16#32).setCsr 3 12#32).setCsr 5 11#32)) (·.status) =
        some 0x102#32 := by decide +kernel

/-- X2, X12 to X15: illegal words change STATUS only. -/
theorem test_issue_illegal :
    [0x00000000#32, 0x00008001#32, 0x00010001#32, 0x0000000c#32, 0x000080ff#32].map
      (fun w => after (issue w (blank.setCsr 5 7#32)) id) =
      List.replicate 5 (some { blank with status := 0x105#32, dinlen := 7#32 }) := by decide

/-- X1: GCTR straight after reset. -/
theorem test_step_X1 : after (step (State.reset.withFetchWord 32 0x00000005)) (fun t => (t.status, t.doutlen, t.pending)) =
    some (0x101#32, 0#32, []) := by decide

/-- 20_memory.md R54: a read of CMD gives 0, and a read changes nothing but the host's answers. -/
theorem test_host_reads :
    after (step (waiting (.move (.csrRead 0)))) id = some { blank with answers := [.csr 0#32] } := by decide

/-! States that meet the hypotheses of the claims -/

theorem read_store (v : List Byte) (j : Nat) (h : j < v.length) : (store v).read (0 + j) = some v[j] := by
  rw [store, Memory.read_writeBytes]
  simp [h]

theorem ready_loaded {t : Nat} (key iv din tag : List Byte) (hk : key.length ∈ [16, 24, 32])
    (ht : t ∈ [96, 104, 112, 120, 128]) (hi : iv.length ≤ 12) (hd : din.length ≤ 16) :
    AeadReady (loaded key iv [] din tag) t key iv [] din := by
  have hk' : key.length < 2 ^ 32 := by simp at hk; omega
  refine ⟨⟨(BitVec.toNat_ofNat _ _ ▸ (Nat.mod_eq_of_lt hk').symm), fun j hj => read_store key j hj⟩,
    ⟨?_, fun j hj => read_store iv j hj⟩, ⟨rfl, fun j hj => absurd hj (Nat.not_lt_zero j)⟩,
    ⟨?_, fun j hj => read_store din j hj⟩, hk, ht, hi.trans Config.twelve_le_capIv, Nat.zero_le _,
    hd.trans Config.sixteen_le_capDin⟩
  · show iv.length = (BitVec.ofNat 32 iv.length).toNat
    rw [BitVec.toNat_ofNat, Nat.mod_eq_of_lt (by omega)]
  · show din.length = (BitVec.ofNat 32 din.length).toNat
    rw [BitVec.toNat_ofNat, Nat.mod_eq_of_lt (by omega)]

/-- The all-zero key, nonce and plaintext of vector S2, in an instance with any capacities. -/
def ready : State := loaded (zeros 16) (zeros 12) [] (zeros 16) []

/-- EncryptSeals, EncryptappendSealsToDout: ready operands, at both ends of the legal tag lengths. -/
theorem witness_ready : AeadReady ready 96 (zeros 16) (zeros 12) [] (zeros 16) ∧
    AeadReady ready 128 (zeros 16) (zeros 12) [] (zeros 16) :=
  ⟨ready_loaded _ _ _ _ (by simp) (by simp) (by simp) (by simp), ready_loaded _ _ _ _ (by simp) (by simp) (by simp) (by simp)⟩

/-- E under the all-zero key, whatever it is. -/
def e0 : Block → Block := Config.blockCipher (zeros 16)

/-- The tag of c under the all-zero key and nonce. -/
def tagOf (t : Nat) (c : List Byte) : List Byte := expectedTag e0 (zeros 12) [] c t

/-- The ciphertext of x under the all-zero key and nonce. -/
def sealed (x : List Byte) : List Byte := cryptData e0 (zeros 12) x

theorem length_tagOf {t : Nat} (ht : t ∈ [96, 104, 112, 120, 128]) (c : List Byte) : (tagOf t c).length = t / 8 := by
  rw [tagOf, length_expectedTag]
  simp at ht
  omega

theorem length_sealed (x : List Byte) : (sealed x).length = x.length := length_cryptData _ _ _

/-- DecryptVerifiesThenOpens, its first case: the expected tag is in TAG. -/
theorem witness_decrypt_match :
    AeadReady (loaded (zeros 16) (zeros 12) [] (zeros 16) (tagOf 96 (zeros 16))) 96 (zeros 16) (zeros 12) [] (zeros 16) ∧
      (tagOf 96 (zeros 16)).length = 96 / 8 ∧
      Holds (loaded (zeros 16) (zeros 12) [] (zeros 16) (tagOf 96 (zeros 16))) .tag 0 (tagOf 96 (zeros 16)) ∧
      tagOf 96 (zeros 16) = computeTag e0 (e0 0#128) (deriveJ0 (e0 0#128) (zeros 12)) [] (zeros 16) 96 :=
  ⟨ready_loaded _ _ _ _ (by simp) (by simp) (by simp) (by simp), length_tagOf (by simp) _, fun j hj => read_store _ j hj,
    rfl⟩

theorem byte_xor_one_ne : ∀ x : Byte, x ^^^ 1#8 ≠ x := by decide +kernel

/-- A tag with the last bit of each byte flipped. -/
def flipped (tag : List Byte) : List Byte := tag.map (· ^^^ 1#8)

theorem flipped_ne {tag : List Byte} (h : 0 < tag.length) : flipped tag ≠ tag := by
  intro he
  have h0 : 0 < (flipped tag).length := by simpa [flipped] using h
  have : (flipped tag)[0] = tag[0] := by simp only [he]
  simp only [flipped, List.getElem_map] at this
  exact byte_xor_one_ne _ this

/-- DecryptVerifiesThenOpens, its second case: another tag is in TAG. -/
theorem witness_decrypt_mismatch :
    AeadReady (loaded (zeros 16) (zeros 12) [] (zeros 16) (flipped (tagOf 128 (zeros 16)))) 128 (zeros 16) (zeros 12) []
        (zeros 16) ∧
      (flipped (tagOf 128 (zeros 16))).length = 128 / 8 ∧
      Holds (loaded (zeros 16) (zeros 12) [] (zeros 16) (flipped (tagOf 128 (zeros 16)))) .tag 0
        (flipped (tagOf 128 (zeros 16))) ∧
      flipped (tagOf 128 (zeros 16)) ≠ computeTag e0 (e0 0#128) (deriveJ0 (e0 0#128) (zeros 12)) [] (zeros 16) 128 := by
  have hl : (tagOf 128 (zeros 16)).length = 16 := length_tagOf (by simp) _
  exact ⟨ready_loaded _ _ _ _ (by simp) (by simp) (by simp) (by simp), by simp [flipped, hl],
    fun j hj => read_store _ j hj, flipped_ne (by omega)⟩

/-- DecryptappendedSplitsAndOpens, both cases: C ‖ Tag in DIN, with four bytes of ciphertext. -/
theorem witness_decryptappended :
    (AeadReady (loaded (zeros 16) (zeros 12) [] (zeros 4 ++ tagOf 96 (zeros 4)) []) 96 (zeros 16) (zeros 12) []
        (zeros 4 ++ tagOf 96 (zeros 4)) ∧ (tagOf 96 (zeros 4)).length = 96 / 8 ∧
      tagOf 96 (zeros 4) = computeTag e0 (e0 0#128) (deriveJ0 (e0 0#128) (zeros 12)) [] (zeros 4) 96) ∧
    (AeadReady (loaded (zeros 16) (zeros 12) [] (zeros 4 ++ flipped (tagOf 96 (zeros 4))) []) 96 (zeros 16) (zeros 12) []
        (zeros 4 ++ flipped (tagOf 96 (zeros 4))) ∧ (flipped (tagOf 96 (zeros 4))).length = 96 / 8 ∧
      flipped (tagOf 96 (zeros 4)) ≠ computeTag e0 (e0 0#128) (deriveJ0 (e0 0#128) (zeros 12)) [] (zeros 4) 96) := by
  have hl : (tagOf 96 (zeros 4)).length = 12 := length_tagOf (by simp) _
  refine ⟨⟨ready_loaded _ _ _ _ (by simp) (by simp) (by simp) (by simp [hl]), hl, rfl⟩,
    ready_loaded _ _ _ _ (by simp) (by simp) (by simp) (by simp [flipped, hl]), by simp [flipped, hl],
    flipped_ne (by omega)⟩

/-- DecryptappendedSplitsAndOpens, a Combined one byte shorter than the tag. -/
theorem witness_shortCombined :
    ((blank.setCsr 2 16#32).setCsr 5 11#32).keylen.toNat ∈ [16, 24, 32] ∧ 96 ∈ [96, 104, 112, 120, 128] ∧
      ((blank.setCsr 2 16#32).setCsr 5 11#32).ivlen.toNat ≤ Config.capIv ∧
      ((blank.setCsr 2 16#32).setCsr 5 11#32).aadlen.toNat ≤ Config.capAad ∧
      ((blank.setCsr 2 16#32).setCsr 5 11#32).dinlen.toNat < 96 / 8 :=
  ⟨by decide, by decide, Nat.zero_le _, Nat.zero_le _, by decide⟩

/-- The state ENCRYPT with TLEN t leaves from `ready`. -/
def encrypted (t : Nat) : State :=
  ((ready.putDout (sealed (zeros 16))).putTag (tagOf t (sealed (zeros 16)))).completeOk

theorem exec_encrypted {t : Nat} (ht : t ∈ [96, 104, 112, 120, 128]) : exec (.encrypt t) ready = .next (encrypted t) :=
  (ready_loaded (zeros 16) (zeros 12) (zeros 16) [] (by simp) ht (by simp) (by simp)).exec_encrypt

theorem holdsResult_encrypted (t : Nat) : HoldsResult (encrypted t) (sealed (zeros 16)) := by
  have hl : (sealed (zeros 16)).length = 16 := by rw [length_sealed, length_zeros]
  refine ⟨?_, fun j hj => ?_⟩
  · show (BitVec.ofNat 32 (sealed (zeros 16)).length).toNat = _
    rw [hl]; decide
  · show ((ready.putDout (sealed (zeros 16))).putTag (tagOf t (sealed (zeros 16)))).byte .dout (0 + j) = _
    rw [State.byte_putTag_of_not (tag := tagOf t (sealed (zeros 16))) (length_expectedTag_le _ _ _ _ _) (by simp [allOfTag]), State.byte_putDout]
    simp [hj]

theorem byte_tag_encrypted {t : Nat} (ht : t ∈ [96, 104, 112, 120, 128]) (a : Nat) (ha : a < t / 8) :
    (encrypted t).byte .tag a =
      some ((tagOf t (sealed (zeros 16)))[a]'(by rw [length_tagOf ht]; exact ha)) := by
  have := (holdsTag_putTag (ready.putDout (sealed (zeros 16))) (tagOf t (sealed (zeros 16)))).1 a
    (by rw [length_tagOf ht]; exact ha)
  rw [Nat.zero_add] at this
  exact this

/-- The machine loaded with that ciphertext and a tag. -/
def reloaded (tag : List Byte) : State := loaded (zeros 16) (zeros 12) [] (sealed (zeros 16)) tag

/-- DecryptUndoesEncrypt: the ciphertext and the tag that ENCRYPT 128 left, to be opened under TLEN 96. -/
theorem witness_roundTrip :
    AeadReady ready 128 (zeros 16) (zeros 12) [] (zeros 16) ∧ exec (.encrypt 128) ready = .next (encrypted 128) ∧
      HoldsResult (encrypted 128) (sealed (zeros 16)) ∧
      AeadReady (reloaded (tagOf 128 (sealed (zeros 16)))) 96 (zeros 16) (zeros 12) [] (sealed (zeros 16)) ∧ 96 ≤ 128 ∧
      ∀ a, a < 96 / 8 → (reloaded (tagOf 128 (sealed (zeros 16)))).byte .tag a = (encrypted 128).byte .tag a := by
  refine ⟨witness_ready.2, exec_encrypted (by simp), holdsResult_encrypted _,
    ready_loaded _ _ _ _ (by simp) (by simp) (by simp) (by rw [length_sealed, length_zeros]), by omega, fun a ha => ?_⟩
  rw [byte_tag_encrypted (by simp) a (by omega)]
  have := read_store (tagOf 128 (sealed (zeros 16))) a (by rw [length_tagOf (by simp)]; omega)
  rw [Nat.zero_add] at this
  exact this

/-- ChangedTagFailsToDecrypt: the same with every byte of the tag changed. -/
theorem witness_changedTag :
    AeadReady (reloaded (flipped (tagOf 128 (sealed (zeros 16))))) 128 (zeros 16) (zeros 12) [] (sealed (zeros 16)) ∧
      (∀ a, a < 128 / 8 → (reloaded (flipped (tagOf 128 (sealed (zeros 16))))).byte .tag a ≠ none) ∧
      ∃ a, a < 128 / 8 ∧
        (reloaded (flipped (tagOf 128 (sealed (zeros 16))))).byte .tag a ≠ (encrypted 128).byte .tag a := by
  have hl : (tagOf 128 (sealed (zeros 16))).length = 16 := length_tagOf (by simp) _
  have hf : (flipped (tagOf 128 (sealed (zeros 16)))).length = 16 := by simp [flipped, hl]
  have hr : ∀ a (h : a < 16), (reloaded (flipped (tagOf 128 (sealed (zeros 16))))).byte .tag a =
      some ((flipped (tagOf 128 (sealed (zeros 16))))[a]'(by omega)) := by
    intro a h
    have := read_store (flipped (tagOf 128 (sealed (zeros 16)))) a (by omega)
    rw [Nat.zero_add] at this
    exact this
  refine ⟨ready_loaded _ _ _ _ (by simp) (by simp) (by simp) (by rw [length_sealed, length_zeros]), fun a ha => ?_,
    0, by omega, fun h => ?_⟩
  · rw [hr a (by omega)]; simp
  · rw [hr 0 (by omega), byte_tag_encrypted (by simp) 0 (by omega)] at h
    simp only [flipped, List.getElem_map, Option.some.injEq] at h
    exact byte_xor_one_ne _ h

/-- DecryptappendedUndoesEncryptappend: four bytes sealed under TLEN 96, and C ‖ Tag copied to DIN. -/
theorem witness_roundTripAppended :
    ∃ s u v c, AeadReady s 96 (zeros 16) (zeros 12) [] (zeros 4) ∧ exec (.encryptappend 96) s = .next u ∧
      HoldsResult u c ∧ AeadReady v 96 (zeros 16) (zeros 12) [] c := by
  have h : AeadReady (loaded (zeros 16) (zeros 12) [] (zeros 4) []) 96 (zeros 16) (zeros 12) [] (zeros 4) :=
    ready_loaded _ _ _ _ (by simp) (by simp) (by simp) (by simp)
  have hl : (sealed (zeros 4) ++ tagOf 96 (sealed (zeros 4))).length = 16 := by
    rw [List.length_append, length_sealed, length_tagOf (by simp), length_zeros]
  exact ⟨_, _, loaded (zeros 16) (zeros 12) [] (sealed (zeros 4) ++ tagOf 96 (sealed (zeros 4))) [], _, h,
    h.exec_encryptappend, holdsResult_putDout _ (sealed (zeros 4) ++ tagOf 96 (sealed (zeros 4))) (by omega),
    ready_loaded _ _ _ _ (by simp) (by simp) (by simp) (by omega)⟩

theorem wholeBlocks_zeros : wholeBlocks (zeros 16) = [0#128] := by decide +kernel

/-- GctrEncryptsDin, DerivecommonDerives, ComputetagWritesTheTag, GhashHashesDin, Derivej0Derives: their operands in `ready`. -/
theorem witness_operands :
    HoldsOperand ready .key (zeros 16) ∧ HoldsOperand ready .iv (zeros 12) ∧ HoldsOperand ready .aad [] ∧
      HoldsOperand ready .din (zeros 16) ∧ (zeros 16).length ∈ [16, 24, 32] ∧ 96 ∈ [96, 104, 112, 120, 128] ∧
      (zeros 12).length ≤ Config.capIv ∧ ([] : List Byte).length ≤ Config.capAad ∧ (zeros 16).length ≤ Config.capDin ∧
      (zeros 16).length % 16 = 0 ∧ (∀ b ∈ wholeBlocks (zeros 16), b = 0#128) := by
  obtain ⟨h1, h2, h3, h4, -, -, h7, h8, h9⟩ := witness_ready.1
  exact ⟨h1, h2, h3, h4, by simp, by simp, h7, h8, h9, by simp, by rw [wholeBlocks_zeros]; simp⟩

/-- The errors of those commands: a key length that is not legal, DINLEN above every capacity, a ragged DINLEN, and IVLEN one above
the capacity of an instance. -/
theorem witness_operandErrors :
    blank.keylen.toNat ∉ [16, 24, 32] ∧
      ((blank.setCsr 2 16#32).setCsr 5 0xFFFFFFFF#32).keylen.toNat ∈ [16, 24, 32] ∧
      Config.capDin < ((blank.setCsr 2 16#32).setCsr 5 0xFFFFFFFF#32).dinlen.toNat ∧
      (blank.setCsr 5 17#32).dinlen.toNat % 16 ≠ 0 ∧ p80.capIv < ((blank.setCsr 2 16#32).setCsr 3 65#32).ivlen.toNat ∧
      ((blank.setCsr 2 16#32).setCsr 3 65#32).keylen.toNat ∈ [16, 24, 32] := by
  refine ⟨by decide, by decide, ?_, by decide, by decide, by decide⟩
  show Config.capDin < 4294967295
  have := Config.capDin_lt
  omega

/-- GfmulMultiplies, its corner cases; EmptyNonceGivesZero. -/
theorem witness_zeroOperands : blank.getBlk .mx = 0#128 ∧ blank.getBlk .my = 0#128 ∧
    (blank.setBlk .mx 0x80000000000000000000000000000000#128).getBlk .mx = 0x80000000000000000000000000000000#128 ∧
    blank.ivlen = 0#32 := by decide

/-- A provider with the three pairs of vector S2, for the worked examples. -/
theorem witness_vectorPairs : VectorPairs (tableE (zeros 16)) := by unfold VectorPairs; decide

/-- InitialCounterFollowsItsBranches: nonces of 11, 12 and 13 bytes; TagStringHasItsBlocks, TagIsTheMaskedHash, GhashIsALinearFold,
TagComparisonIsEquality, CounterBlocksCountUp, GctrXorsTheKeyStream: lengths at the edges of a block. -/
theorem witness_lengths :
    (zeros 12).length = 12 ∧ (zeros 11).length ≠ 12 ∧ (zeros 13).length ≠ 12 ∧ (zeros 16).length % 16 = 0 ∧
      104 ∈ [96, 104, 112, 120, 128] ∧ ([1#128, 2#128] : List Block).length = ([3#128, 4#128] : List Block).length ∧
      (zeros 12).length = (flipped (zeros 12)).length ∧ 1 < (counterBlocks 0xffffffff#128 2).length ∧
      16 < (zeros 17).length ∧ 16 < (gctr (tableE k0) 2#128 (zeros 17)).length ∧
      ((zeros 17).drop 16).take 16 = ((1#8 :: zeros 16).drop 16).take 16 := by decide

/-- EncryptIsItsPrimitives: the chain of the moves from `ready`, the ciphertext copied to DIN of a machine with the same H and
J0. -/
theorem witness_primitives :
    ∃ s1 s2 s3 s4 s5 c, exec .derivecommon ready = .next s1 ∧
      exec .inc32 (s1.setBlk .cb (s1.getBlk .j0)) = .next s2 ∧ exec .gctr s2 = .next s3 ∧ HoldsResult s3 c ∧
      HoldsOperand s4 .key (zeros 16) ∧ HoldsOperand s4 .aad [] ∧ HoldsOperand s4 .din c ∧
      s4.getBlk .hk = s3.getBlk .hk ∧ s4.getBlk .j0 = s3.getBlk .j0 ∧ exec (.computetag 128) s4 = .next s5 := by
  obtain ⟨hk, hi, -, hd, h5, -, h7, h8, h9, -⟩ := witness_operands
  let s1 := ((ready.setBlk .hk (hashSubkey e0)).setBlk .j0 (deriveJ0 (hashSubkey e0) (zeros 12))).completeOk
  have e1 : exec .derivecommon ready = .next s1 := exec_derivecommon_of hk hi h5 h7
  obtain ⟨s2, e2, hk2, hd2⟩ : ∃ s2, exec .inc32 (s1.setBlk .cb (s1.getBlk .j0)) = .next s2 ∧
      HoldsOperand s2 .key (zeros 16) ∧ HoldsOperand s2 .din (zeros 16) := ⟨_, rfl, hk, hd⟩
  have e3 := exec_gctr_of hk2 hd2 h5 h9
  let c := gctr (Config.blockCipher (zeros 16)) (s2.getBlk .cb) (zeros 16)
  let s3 := (s2.putDout c).completeOk
  let s4 := ((loaded (zeros 16) (zeros 12) [] c []).setBlk .hk (s3.getBlk .hk)).setBlk .j0 (s3.getBlk .j0)
  have hc : c.length = 16 := by simp [c]
  have h := ready_loaded (t := 128) (zeros 16) (zeros 12) c [] h5 (by simp) (by simp) (by omega)
  have hk4 : HoldsOperand s4 .key (zeros 16) := h.keyHeld
  have ha4 : HoldsOperand s4 .aad [] := h.aadHeld
  have hd4 : HoldsOperand s4 .din c := h.dinHeld
  exact ⟨s1, s2, s3, s4, _, c, e1, e2, e3, holdsResult_putDout _ _ (by omega), hk4, ha4, hd4, rfl, rfl,
    exec_computetag_of hk4 ha4 hd4 h5 (by simp) h8 h.dinFits⟩

/-- HostMovesFollowTheTable, ResetHoldsTheTable: every host move, with every index and value, and a reset waits in a state. -/
theorem witness_moves : ∀ x : Input, (waiting x).pending = [x] := fun _ => rfl

/-- The offset and value cases of BufRead and BufWrite: the last offset of KEY with and without a value, the first one past it, a
write to DOUT. -/
theorem witness_offsets :
    31 < capacity Config.params .key ∧ (blank.setByte .key 31 7#8).byte .key 31 = some 7#8 ∧ blank.byte .key 31 = none ∧
      capacity Config.params .key ≤ 32 ∧ 15 < capacity Config.params .tag ∧ capacity Config.params .tag ≤ 16 ∧
      0 < capacity Config.params .dout :=
  ⟨by decide, by decide, by decide, by decide, by decide, by decide, Nat.succ_pos _⟩

/-- Words for the lines of DecodeFollowsItsLines and IllegalWordsCompleteWithIllegalCommand, and of StepRunsTheDecodedCommand,
EncodeOfDecodeGivesTheWord and OpcodeMapSelectsOneRow: each line at an edge of its range. -/
theorem witness_words :
    (0x00010001#32).toNat / 65536 ≠ 0 ∧
      ((0x00000006#32).toNat / 65536 = 0 ∧ (0x00000006#32).toNat / 256 % 256 = 0 ∧ (0x00000006#32).toNat % 256 = 6) ∧
      (1 ≤ (0x00000106#32).toNat % 256 ∧ (0x00000106#32).toNat % 256 ≤ 6 ∧ (0x00000106#32).toNat / 256 % 256 ≠ 0) ∧
      ((0x0000FF0B#32).toNat / 65536 = 0 ∧ (0x0000FF0B#32).toNat % 256 = 11) ∧
      (0x00000000#32).toNat % 256 = 0 ∧ 12 ≤ (0x0000000C#32).toNat % 256 ∧
      (decodeTableWord 32 0x0000FF0B = some (.decryptappended 255) ∧ WellFormed (.decryptappended 255)) := by decide

/-- OnlyResetClearsDone, DoutIsWrittenByCommandsOnly (a move that is no command), StepKeepsTheInvariant: a step of a machine that has
completed a command. -/
theorem witness_step :
    step { waiting (.move (.blkWrite .mx 5#128)) with status := 0x100#32 } =
        .next { blank.setBlk .mx 5#128 with status := 0x100#32 } ∧
      State.done { waiting (.move (.blkWrite .mx 5#128)) with status := 0x100#32 } = true ∧
      ∀ w, HostMove.blkWrite .mx 5#128 ≠ .csrWrite 0 w :=
  ⟨rfl, by decide, fun _ h => nomatch h⟩

theorem witness_inv : State.Inv { waiting (.move (.blkWrite .mx 5#128)) with status := 0x100#32 } := by
  refine ⟨fun b => ?_, fun b a _ => ?_, by decide, by decide, by decide, fun a h => absurd h (Nat.not_lt_zero a)⟩
  · cases b <;> exact List.Pairwise.nil
  · cases b <;> rfl

/-- A command that ends with an error: GCTR with no key. ErrorsFollowTheirPriority, ErrorsWriteStatusAndDoutlenOnly,
FailedCommandsFailAgain, DoutIsWrittenByCommandsOnly (an error), ProviderKeysAreLegal. -/
theorem witness_error :
    exec .gctr blank = .next { blank with status := 0x101#32 } ∧ validationCode .gctr blank = some 1#4 ∧
      State.code { blank with status := 0x101#32 } ≠ 0#4 ∧ State.code { blank with status := 0x101#32 } ≠ 3#4 ∧
      hasDout .gctr = true ∧ decodeTableWord 32 0x00000005 = some .gctr ∧
      step (waiting (.move (.csrWrite 0 0x00000005#32))) = .next { blank with status := 0x101#32 } :=
  ⟨rfl, rfl, by decide, by decide, rfl, by decide, rfl⟩

/-- RaisesItsErrors in the statements of the five format-T commands: no key, and a TLEN outside the legal
set (witness_shortCombined has a Combined shorter than the tag). -/
theorem witness_raises :
    (∀ i ∈ [Instr.computetag 128, .encrypt 128, .decrypt 128, .encryptappend 128, .decryptappended 128],
      validationCode i blank = some 1#4) ∧
      (∀ i ∈ [Instr.computetag 97, .encrypt 97, .decrypt 97, .encryptappend 97, .decryptappended 97],
        validationCode i (blank.setCsr 2 16#32) = some 2#4) := by decide

/-- A word that selects no command. ErrorsFollowTheirPriority, DoutIsWrittenByCommandsOnly (an illegal word). -/
theorem witness_illegal :
    decodeTableWord 32 0x00000000 = none ∧
      step (waiting (.move (.csrWrite 0 0#32))) = .next { blank with status := 0x105#32 } := ⟨by decide, rfl⟩

/-- A command that completes OK. CommandsWriteOnlyTheirRow, ErrorsFollowTheirPriority (no cause), DoutIsWrittenByCommandsOnly (a
command without DOUT). -/
theorem witness_ok :
    exec .inc32 blank = .next { blank.setBlk .cb 1#128 with status := 0x100#32 } ∧ validationCode .inc32 blank = none ∧
      hasDout .inc32 = false ∧
      step (waiting (.move (.csrWrite 0 0x00000004#32))) = .next { blank.setBlk .cb 1#128 with status := 0x100#32 } :=
  ⟨rfl, rfl, rfl, rfl⟩

/-- DoutIsWrittenByCommandsOnly: a command with DOUT among its outputs that completes OK. -/
theorem witness_dout :
    exec .gctr ready = .next (ready.putDout (gctr e0 0#128 (zeros 16))).completeOk ∧ hasDout .gctr = true ∧
      (ready.putDout (gctr e0 0#128 (zeros 16))).completeOk.code = 0#4 := by
  obtain ⟨hk, -, -, hd, h5, -, -, -, h9, -⟩ := witness_operands
  exact ⟨exec_gctr_of hk hd h5 h9, rfl, by decide⟩

/-- CommandsStopOnlyOnValuelessBytes: GCTR with KEYLEN 16 and a KEY that holds nothing. -/
theorem witness_stop :
    exec .gctr (blank.setCsr 2 16#32) = .fault (.unwrittenByte .key) ∧ validationCode .gctr (blank.setCsr 2 16#32) = none ∧
      readsByte .gctr (blank.setCsr 2 16#32) .key 0 ∧ (blank.setCsr 2 16#32).byte .key 0 = none :=
  ⟨rfl, rfl, ⟨rfl, by decide⟩, rfl⟩

/-- CommandsDependOnTheirInputsOnly: states that differ in everything INC32 does not read, and in what GCTR does not read where it
stops. -/
theorem witness_sameInputs :
    SameInputs .inc32 blank (((loaded [] [] [] p5 []).setBlk .mx 1#128).setCsr 2 16#32) ∧
      SameInputs .gctr (blank.setCsr 2 16#32) ((blank.setCsr 2 16#32).setBlk .my 1#128) := by
  refine ⟨⟨fun r hr => ?_, nofun, nofun, nofun, nofun, fun b a h => ?_⟩, fun r hr => ?_, fun _ => rfl, nofun, nofun,
    fun _ => rfl, fun b a _ => rfl⟩
  · simp [blkReads] at hr; subst hr; rfl
  · cases b <;> simp [readsByte, usesKey, usesIv, usesAad, usesDin] at h
  · simp [blkReads] at hr; subst hr; rfl

/-- ProviderMattersOnlyThroughItsCalls: two providers that agree on the one call of DERIVECOMMON and not on another block. -/
theorem witness_provider :
    (∀ c ∈ portCalls p80 .derivecommon (loaded k0 [] [] [] []),
      (fun key b => if b = 0#128 then tableE key b else 7#128) c.key c.block = p80.cipher c.key c.block) ∧
      (fun (key : List Byte) (b : Block) => if b = 0#128 then tableE key b else 7#128) k0 1#128 ≠ p80.cipher k0 1#128 := by
  decide +kernel

/-- LoadScriptLoadsTheOperand: sixteen key bytes on a waiting machine. -/
theorem witness_load :
    blank.pending = [] ∧ Buf.key ≠ .dout ∧ k3.length ≤ capacity Config.params .key ∧
      (zeros 32).length ≤ capacity Config.params .key := by
  refine ⟨rfl, by decide, ?_, ?_⟩
  · show k3.length ≤ 32
    decide
  · show (zeros 32).length ≤ 32
    decide

end Sys2Proof.Tests
end

/-! The result buffer, 10_state.md R37: what a step leaves of DOUT and DOUTLEN. -/

namespace Sys2Proof.Machine

/-- DOUT and DOUTLEN are as before. -/
def KeepsDout (s t : State) : Prop := t.doutlen = s.doutlen ∧ ∀ a, t.byte .dout a = s.byte .dout a

/-- A completion OK with a result: a value in every byte below DOUTLEN, the other bytes of DOUT as before. -/
def WritesDout (s t : State) : Prop :=
  t.code = 0#4 ∧ ∀ a, (a < t.doutlen.toNat → t.byte .dout a ≠ none) ∧
    (t.doutlen.toNat ≤ a → t.byte .dout a = s.byte .dout a)

/-- An ending with an error: DOUTLEN is 0 and every byte of DOUT as before. -/
def ClearsDoutlen (s t : State) : Prop :=
  t.code ≠ 0#4 ∧ t.doutlen = 0#32 ∧ ∀ a, t.byte .dout a = s.byte .dout a

/-! Host moves -/

@[simp] theorem State.setCsr_doutlen (s : State) (n : Nat) (v : Word) : (s.setCsr n v).doutlen = s.doutlen := by
  unfold State.setCsr
  split <;> rfl

@[simp] theorem State.byte_setCsr (s : State) (n : Nat) (v : Word) (b : Buf) (a : Nat) :
    (s.setCsr n v).byte b a = s.byte b a := by
  unfold State.setCsr
  split <;> rfl

theorem hostBufRead_next {b : Buf} {a : Nat} {s t : State} (h : hostBufRead b a s = .next t) :
    a < capacity Config.params b ∧ ∃ v, s.byte b a = some v ∧ t = s.answer (.byte v) := by
  unfold hostBufRead at h
  split at h
  · next hlt =>
    split at h
    · next v hv => cases h; exact ⟨hlt, v, hv, rfl⟩
    · cases h
  · cases h

theorem hostBufWrite_next {b : Buf} {a : Nat} {v : Byte} {s t : State} (h : hostBufWrite b a v s = .next t) :
    a < capacity Config.params b ∧ (b = .dout ∧ t = s ∨ b ≠ .dout ∧ t = s.setByte b a v) := by
  unfold hostBufWrite at h
  split at h
  · next hlt =>
    split at h
    · cases h; exact ⟨hlt, .inl ⟨rfl, rfl⟩⟩
    · next hb => cases h; exact ⟨hlt, .inr ⟨hb, rfl⟩⟩
  · cases h

theorem keepsDout_setByte (s : State) {b : Buf} (a : Nat) (v : Byte) (hb : b ≠ .dout) : KeepsDout s (s.setByte b a v) :=
  ⟨rfl, fun a' => by rw [State.byte_setByte, if_neg fun h => hb h.1.symm]⟩

/-- No host move but a write to CMD changes DOUT or DOUTLEN: a write to CSR 6 or to DOUT has no effect. -/
theorem hostMove_keepsDout {m : HostMove} {s t : State} (h : hostMove m s = .next t) (hm : ∀ w, m ≠ .csrWrite 0 w) :
    KeepsDout s t := by
  cases m with
  | csrRead n => cases h; exact ⟨rfl, fun _ => rfl⟩
  | csrWrite n v =>
    cases n with
    | zero => exact absurd rfl (hm v)
    | succ n => cases h; exact ⟨s.setCsr_doutlen _ _, s.byte_setCsr _ _ _⟩
  | blkRead r => cases h; exact ⟨rfl, fun _ => rfl⟩
  | blkWrite r v => cases h; exact ⟨rfl, fun _ => rfl⟩
  | bufRead b a =>
    obtain ⟨-, v, -, rfl⟩ := hostBufRead_next h
    exact ⟨rfl, fun _ => rfl⟩
  | bufWrite b a v =>
    obtain ⟨-, ⟨-, rfl⟩ | ⟨hb, rfl⟩⟩ := hostBufWrite_next h
    · exact ⟨rfl, fun _ => rfl⟩
    · exact keepsDout_setByte s a v hb

/-! Operations of commands -/

theorem keepsDout_raise (s : State) (k : ErrorKind) : KeepsDout s (s.raise k false) := ⟨rfl, fun _ => rfl⟩

theorem clearsDoutlen_raise (s : State) (k : ErrorKind) : ClearsDoutlen s (s.raise k true) :=
  ⟨by rw [State.code_raise]; exact k.code_ne_zero, rfl, fun _ => rfl⟩

theorem State.byte_dout_putTag (s : State) (tag : List Byte) (a : Nat) :
    (s.putTag tag).byte .dout a = s.byte .dout a := by simp [State.byte_putTag]

theorem writesDout_putDout (s : State) {r : List Byte} (hr : r.length < 2 ^ 32) : WritesDout s (s.putDout r).completeOk := by
  obtain ⟨hlen, hheld⟩ := holdsResult_putDout s r hr
  refine ⟨State.code_completeOk _, fun a => ⟨fun ha => ?_, fun ha => ?_⟩⟩
  · have := hheld a (hlen ▸ ha)
    rw [Nat.zero_add] at this
    simp [this]
  · rw [hlen] at ha
    rw [State.byte_completeOk, State.byte_putDout, dif_neg fun h => Nat.not_le.2 h.2 ha]

theorem WritesDout.putTag {s u : State} (h : WritesDout s u.completeOk) (tag : List Byte) :
    WritesDout s (u.putTag tag).completeOk :=
  ⟨State.code_completeOk _, fun a => by
    have := h.2 a
    rwa [State.byte_completeOk, State.completeOk_doutlen, State.putTag_doutlen, State.byte_dout_putTag]⟩

/-- An operand is shorter than 2^32, since its length register has 32 bits. -/
theorem HoldsOperand.length_lt {s : State} {b : Buf} {v : List Byte} (h : HoldsOperand s b v) : v.length < 2 ^ 32 :=
  h.1 ▸ (s.lenOf b).isLt

theorem verifyAndDecrypt_writesDout_or_clearsDoutlen (s : State) (e : Block → Block) (iv a : List Byte) {c : List Byte}
    (tag : List Byte) (t : Nat) (hc : c.length < 2 ^ 32) :
    WritesDout s (verifyAndDecrypt s e iv a c tag t) ∨ ClearsDoutlen s (verifyAndDecrypt s e iv a c tag t) := by
  rcases verifyAndDecrypt_cases s e iv a c tag t with h | h <;> rw [h]
  · exact .inl (writesDout_putDout s (by rwa [length_cryptData]))
  · exact .inr (clearsDoutlen_raise s _)

/-! Commands -/

/-- C ‖ Tag of a command that passed its validations fits a 32-bit DOUTLEN: DIN is inside its capacity, 00_scope.md R7. -/
theorem length_sealedWithTag_lt {s : State} {t : Nat} {p : List Byte} (hv : validationCode (.encryptappend t) s = none)
    (hp : HoldsOperand s .din p) (e : Block → Block) (iv a c : List Byte) :
    (cryptData e iv p ++ expectedTag e iv a c t).length < 2 ^ 32 := by
  obtain ⟨-, -, hfit, -⟩ := validationCode_eq_none.1 hv
  have hdin : s.dinlen.toNat ≤ Config.capDin := Nat.not_lt.1 fun h => hfit (.inr (.inr (.inl ⟨rfl, h⟩)))
  have hlen : p.length = s.dinlen.toNat := hp.1
  have htag := length_expectedTag_le e iv a c t
  have hcap := capDin_add_lt
  rw [List.length_append, length_cryptData]
  omega

theorem Effect.keepsDout {s t : State} {i : Instr} (h : Effect s i t) (hd : hasDout i = false) : KeepsDout s t := by
  cases h with
  | raised _ => rw [hd]; exact keepsDout_raise s _
  | computetag _ _ _ _ => exact ⟨rfl, State.byte_dout_putTag s _⟩
  | gfmul | ghash _ _ | derivej0 _ _ | inc32 | derivecommon _ _ _ => exact ⟨rfl, fun _ => rfl⟩
  | gctr _ _ _ | encrypt _ _ | decrypt _ _ _ _ | encryptappend _ _ | decryptappended _ _ => cases hd

theorem Effect.writesDout_or_clearsDoutlen {s t : State} {i : Instr} (h : Effect s i t) (hd : hasDout i = true) :
    WritesDout s t ∨ ClearsDoutlen s t := by
  cases h with
  | raised _ => rw [hd]; exact .inr (clearsDoutlen_raise s _)
  | gctr _ _ hx => exact .inl (writesDout_putDout s (by rw [length_gctr]; exact hx.length_lt))
  | encrypt _ ho =>
    obtain ⟨-, -, -, hp⟩ := (aeadOperands_eq_ok _ _).1 ho
    exact .inl ((writesDout_putDout s (by rw [length_cryptData]; exact hp.length_lt)).putTag _)
  | decrypt _ ho _ _ =>
    obtain ⟨-, -, -, hc⟩ := (aeadOperands_eq_ok _ _).1 ho
    exact verifyAndDecrypt_writesDout_or_clearsDoutlen s _ _ _ _ _ hc.length_lt
  | encryptappend hv ho =>
    obtain ⟨-, -, -, hp⟩ := (aeadOperands_eq_ok _ _).1 ho
    exact .inl (writesDout_putDout s (length_sealedWithTag_lt hv hp _ _ _ _))
  | decryptappended _ ho =>
    obtain ⟨-, -, -, hc⟩ := (aeadOperands_eq_ok _ _).1 ho
    exact verifyAndDecrypt_writesDout_or_clearsDoutlen s _ _ _ _ _ (Nat.lt_of_le_of_lt (List.length_take_le' _ _) hc.length_lt)
  | gfmul | ghash _ _ | derivej0 _ _ | inc32 | derivecommon _ _ _ | computetag _ _ _ _ => cases hd

/-- Settles O45: by the kinds of host move, and for a command by the inversion `exec_next` of what it can have done. -/
theorem doutIsWrittenByCommandsOnly : Obligations.DoutIsWrittenByCommandsOnly := by
  intro s t m rest hp hs
  have hmove : hostMove m { s with pending := rest } = .next t := (step_cons hp).symm.trans hs
  have command {w : Word} {i : Instr} (hm : m = .csrWrite 0 w) (hw : decode w = .ok i) :
      Effect { s with pending := rest } i t := by
    subst hm
    exact exec_next ((issue_ok hw _).symm.trans hmove)
  refine ⟨hostMove_keepsDout (s := { s with pending := rest }) hmove, fun w i hm hw hd hc => ?_,
    fun w i hm hw hd hc => ?_, fun w i hm hw hd => ?_, fun w hm hw => ?_⟩
  · rcases (command hm hw).writesDout_or_clearsDoutlen hd with h | h
    · exact h.2
    · exact absurd hc h.1
  · rcases (command hm hw).writesDout_or_clearsDoutlen hd with h | h
    · exact absurd h.1 hc
    · exact h.2
  · exact (command hm hw).keepsDout hd
  · subst hm
    cases (issue_illegal hw _).symm.trans hmove
    exact keepsDout_raise s .illegalCommand

end Sys2Proof.Machine

/-! The host's moves, 20_memory.md R54: what each row of the table answers and leaves. -/

namespace Sys2Proof.Machine

theorem step_move {s : State} {m : HostMove} {rest : List Input} (h : s.pending = .move m :: rest) :
    step s = hostMove m { s with pending := rest } := step_cons h

/-! CSRs -/

/-- 10_state.md R23: there is no CSR above index 6. -/
theorem State.csr_of_six_lt (s : State) {n : Nat} (h : 6 < n) : s.csr n = 0#32 := by
  obtain ⟨k, rfl⟩ := Nat.exists_eq_add_of_le' h
  rfl

/-- 10_state.md R23: STATUS, DOUTLEN and the indices above 6 ignore a write. -/
theorem State.setCsr_of_ignored (s : State) {n : Nat} (v : Word) (h : n = 1 ∨ 6 ≤ n) : s.setCsr n v = s := by
  rcases h with rfl | h
  · rfl
  · obtain ⟨k, rfl⟩ := Nat.exists_eq_add_of_le' h
    rfl

theorem hostMove_csrWrite_of_ne_zero {n : Nat} (h : n ≠ 0) (v : Word) (s : State) :
    hostMove (.csrWrite n v) s = .next (s.setCsr n v) := by
  obtain ⟨k, rfl⟩ := Nat.exists_eq_succ_of_ne_zero h
  rfl

/-! Buffers -/

theorem hostBufRead_of_some {b : Buf} {a : Nat} {s : State} {v : Byte} (ha : a < capacity Config.params b)
    (hv : s.byte b a = some v) : hostBufRead b a s = .next (s.answer (.byte v)) := by
  rw [hostBufRead, if_pos ha, hv]

theorem hostBufRead_of_none {b : Buf} {a : Nat} {s : State} (ha : a < capacity Config.params b)
    (hv : s.byte b a = none) : hostBufRead b a s = .fault (.unwrittenByte b) := by
  rw [hostBufRead, if_pos ha, hv]

theorem hostBufRead_of_capacity_le {b : Buf} {a : Nat} (h : capacity Config.params b ≤ a) (s : State) :
    hostBufRead b a s = .fault (.noSuchLocation b a) := if_neg (Nat.not_lt.2 h)

theorem hostBufWrite_dout {a : Nat} (ha : a < capacity Config.params .dout) (v : Byte) (s : State) :
    hostBufWrite .dout a v s = .next s := if_pos ha

theorem hostBufWrite_of_ne_dout {b : Buf} {a : Nat} (ha : a < capacity Config.params b) (hb : b ≠ .dout) (v : Byte)
    (s : State) : hostBufWrite b a v s = .next (s.setByte b a v) := by
  cases b with
  | dout => exact absurd rfl hb
  | key | iv | aad | din | tag => exact if_pos ha

theorem hostBufWrite_of_capacity_le {b : Buf} {a : Nat} (h : capacity Config.params b ≤ a) (v : Byte) (s : State) :
    hostBufWrite b a v s = .fault (.noSuchLocation b a) := if_neg (Nat.not_lt.2 h)

/-! Frames of the two writes -/

theorem frame_setBlk (s : State) (r : BlkReg) (v : Block) : Frame s (s.setBlk r v) [r] [] noBytes :=
  ⟨fun r' hr => by rw [State.getBlk_setBlk, if_neg (List.ne_of_not_mem_cons hr)],
    keepsCsrs_of (.inr rfl) rfl rfl rfl rfl (.inr rfl), fun _ _ _ => rfl, rfl, rfl, rfl⟩

theorem frame_setByte (s : State) (b : Buf) (a : Nat) (v : Byte) :
    Frame s (s.setByte b a v) [] [] (fun b' a' => b' = b ∧ a' = a) :=
  ⟨fun _ _ => rfl, keepsCsrs_of (.inr rfl) rfl rfl rfl rfl (.inr rfl),
    fun b' a' h => by rw [State.byte_setByte, if_neg h], rfl, rfl, rfl⟩

/-- Settles O8, by the kinds of host move. -/
theorem hostMovesFollowTheTable : Obligations.HostMovesFollowTheTable := by
  intro s rest
  refine ⟨fun n hp => ?csrRead, fun n v hp => ?csrWrite, fun r hp => ?blkRead, fun r v hp => ?blkWrite,
    fun b a hp => ?bufRead, fun b a v hp => ?bufWrite⟩ <;> rw [step_move hp]
  case csrRead =>
    refine ⟨s.csr n, rfl, ?_, ?_, ?_, ?_, ?_, ?_, ?_, s.csr_of_six_lt⟩ <;> rintro rfl <;> rfl
  case csrWrite =>
    refine ⟨?_, ?_, ?_, ?_, ?_, fun h => ?ignored⟩
    case ignored => rw [hostMove_csrWrite_of_ne_zero (by omega), State.setCsr_of_ignored _ v h]
    all_goals rintro rfl; rfl
  case blkRead => rfl
  case blkWrite => exact ⟨_, rfl, by rw [State.getBlk_setBlk, if_pos rfl], frame_setBlk _ r v⟩
  case bufRead =>
    exact ⟨fun ha v hv => hostBufRead_of_some ha hv, fun ha hv => hostBufRead_of_none ha hv,
      fun h => hostBufRead_of_capacity_le h _⟩
  case bufWrite =>
    refine ⟨fun ha hb => ⟨_, hostBufWrite_of_ne_dout ha hb v _, ?_, frame_setByte _ b a v⟩, fun ha hb => ?_,
      fun h => hostBufWrite_of_capacity_le h v _⟩
    · rw [State.byte_setByte, if_pos ⟨rfl, rfl⟩]
    · subst hb
      exact hostBufWrite_dout ha v _

end Sys2Proof.Machine

/-! Decoding, 30_encoding.md R81 to R85: the words of each command, and the words of none. -/

namespace Sys2Proof

/-! Fields -/

/-- 30_encoding.md R84: a word decodes to a command exactly when its three fields are that command's. -/
theorem decode_eq_ok_iff {w : Word} {i : Instr} :
    decode w = .ok i ↔ fieldReserved w = 0 ∧ fieldOpc w = i.opcode ∧ fieldTlen w = i.tlen := by
  refine ⟨decode_fields, fun ⟨hres, hopc, htlen⟩ => ?_⟩
  rw [decode, if_neg (not_not.2 hres), hopc, htlen]
  cases i <;> rfl

theorem Instr.opcode_pos (i : Instr) : 0 < i.opcode := by cases i <;> exact Nat.succ_pos _

/-- 30_encoding.md R83: the commands with opcodes 1 to 6 are those of format N. -/
theorem Instr.tlen_eq_zero {i : Instr} (h : i.opcode ≤ 6) : i.tlen = 0 := by
  cases i with
  | gfmul | ghash | derivej0 | inc32 | gctr | derivecommon => rfl
  | computetag _ | encrypt _ | decrypt _ | encryptappend _ | decryptappended _ => simp [Instr.opcode] at h

/-- The four causes of 30_encoding.md R85 for which a word is no command. -/
theorem decode_ne_ok {w : Word} (h : fieldReserved w ≠ 0 ∨ fieldOpc w = 0 ∨ 12 ≤ fieldOpc w ∨
    (1 ≤ fieldOpc w ∧ fieldOpc w ≤ 6 ∧ fieldTlen w ≠ 0)) (i : Instr) : decode w ≠ .ok i := by
  intro hw
  obtain ⟨hres, hopc, htlen⟩ := decode_fields hw
  rw [hres, hopc, htlen] at h
  obtain h | h | h | ⟨-, hle, hne⟩ := h
  · exact h rfl
  · exact i.opcode_pos.ne' h
  · exact Nat.not_lt.2 h i.opcode_lt
  · exact hne (Instr.tlen_eq_zero hle)

/-- Settles O2: a legal line gives the three fields of its command, an illegal one a cause of R85. -/
theorem decodeFollowsItsLines : Obligations.DecodeFollowsItsLines := by
  rintro w _ _ _ rfl rfl rfl
  rw [← fieldReserved_eq, ← fieldTlen_eq, ← fieldOpc_eq]
  refine ⟨fun hres => decode_ne_ok (.inl hres), fun hres htlen => ?formatN,
    fun _ hpos hle htlen => decode_ne_ok (.inr (.inr (.inr ⟨hpos, hle, htlen⟩))), fun hres => ?formatT,
    fun _ hopc => decode_ne_ok (.inr (hopc.imp_right .inl))⟩
  case formatN => refine ⟨?_, ?_, ?_, ?_, ?_, ?_⟩ <;> exact fun hopc => decode_eq_ok_iff.2 ⟨hres, hopc, htlen⟩
  case formatT => refine ⟨?_, ?_, ?_, ?_, ?_⟩ <;> exact fun hopc => decode_eq_ok_iff.2 ⟨hres, hopc, rfl⟩

/-! Encoding -/

theorem decode_encode {i : Instr} (h : WellFormed i) : decode (encode i) = .ok i := by
  have hopc := i.opcode_lt
  have htlen : i.tlen < 256 := h
  rw [decode_eq_ok_iff, fieldReserved_eq, fieldOpc_eq, fieldTlen_eq, toNat_encode h]
  omega

theorem wellFormed_of_decode {w : Word} {i : Instr} (h : decode w = .ok i) : WellFormed i := by
  obtain ⟨-, -, htlen⟩ := decode_fields h
  rw [WellFormed, ← htlen, fieldTlen_eq]
  exact Nat.mod_lt _ (by decide)

theorem encode_of_decode {w : Word} {i : Instr} (h : decode w = .ok i) : encode i = w := by
  obtain ⟨hres, hopc, htlen⟩ := decode_fields h
  rw [fieldReserved_eq] at hres
  rw [fieldOpc_eq] at hopc
  rw [fieldTlen_eq] at htlen
  refine BitVec.eq_of_toNat_eq ?_
  rw [toNat_encode (wellFormed_of_decode h)]
  omega

theorem encode_inj {i j : Instr} (hi : WellFormed i) (hj : WellFormed j) (h : encode i = encode j) : i = j :=
  Except.ok.inj ((decode_encode hi).symm.trans ((congrArg decode h).trans (decode_encode hj)))

/-! The opcode map, 30_encoding.md R83 -/

theorem exists_row_of_mem_opcodeMap {r : OpcodeRow} (h : r ∈ opcodeMap) : ∃ i : Instr, i.row = r := by
  have hrows : opcodeMap = [Instr.gfmul, .ghash, .derivej0, .inc32, .gctr, .derivecommon, .computetag 0, .encrypt 0,
    .decrypt 0, .encryptappend 0, .decryptappended 0].map Instr.row := rfl
  obtain ⟨i, -, hi⟩ := List.mem_map.1 (hrows ▸ h)
  exact ⟨i, hi⟩

theorem Instr.row_mem_opcodeMap (i : Instr) : i.row ∈ opcodeMap := by cases i <;> simp [Instr.row, opcodeMap]

theorem Instr.row_selects_encode {i : Instr} (h : WellFormed i) : i.row.selects (encode i) = true := by
  cases i with
  | gfmul => exact Laws.EncodingInRow.gfmul h
  | ghash => exact Laws.EncodingInRow.ghash h
  | derivej0 => exact Laws.EncodingInRow.derivej0 h
  | inc32 => exact Laws.EncodingInRow.inc32 h
  | gctr => exact Laws.EncodingInRow.gctr h
  | derivecommon => exact Laws.EncodingInRow.derivecommon h
  | computetag t => exact Laws.EncodingInRow.computetag t h
  | encrypt t => exact Laws.EncodingInRow.encrypt t h
  | decrypt t => exact Laws.EncodingInRow.decrypt t h
  | encryptappend t => exact Laws.EncodingInRow.encryptappend t h
  | decryptappended t => exact Laws.EncodingInRow.decryptappended t h

theorem Instr.row_pattern (i : Instr) : i.row.pattern = BitVec.ofNat 32 i.opcode := by cases i <;> rfl

/-- Every mask of the map keeps the reserved bits and OPC. -/
theorem mask_of_mem_opcodeMap : ∀ r ∈ opcodeMap,
    r.mask.extractLsb' 16 16 = BitVec.allOnes 16 ∧ r.mask.extractLsb' 0 8 = BitVec.allOnes 8 := by decide

theorem and_mask_of_row_selects {w : Word} {i : Instr} (h : i.row.selects w = true) :
    w &&& i.row.mask = BitVec.ofNat 32 i.opcode := (beq_iff_eq.1 h).trans i.row_pattern

theorem fields_of_row_selects {w : Word} {i : Instr} (h : i.row.selects w = true) :
    fieldReserved w = 0 ∧ fieldOpc w = i.opcode := by
  have hopc := i.opcode_lt
  obtain ⟨hresMask, hopcMask⟩ := mask_of_mem_opcodeMap _ i.row_mem_opcodeMap
  have hres : fieldReserved (w &&& i.row.mask) = fieldReserved w := by
    rw [fieldReserved, BitVec.extractLsb'_and, hresMask, BitVec.and_allOnes, fieldReserved]
  have hop : fieldOpc (w &&& i.row.mask) = fieldOpc w := by
    rw [fieldOpc, BitVec.extractLsb'_and, hopcMask, BitVec.and_allOnes, fieldOpc]
  rw [← hres, ← hop, and_mask_of_row_selects h, fieldReserved_eq, fieldOpc_eq, BitVec.toNat_ofNat]
  omega

/-- The mask of a format-N row keeps TLEN too. -/
theorem fieldTlen_of_row_selects {w : Word} {i : Instr} (h : i.row.selects w = true)
    (hmask : i.row.mask = BitVec.allOnes 32) : fieldTlen w = 0 := by
  have hopc := i.opcode_lt
  have hp := and_mask_of_row_selects h
  rw [hmask, BitVec.and_allOnes] at hp
  rw [hp, fieldTlen_eq, BitVec.toNat_ofNat]
  omega

/-- A word that selects the row of a command decodes to a command of that row: the same one, but for TLEN. -/
theorem exists_decode_of_row_selects {w : Word} {i : Instr} (h : i.row.selects w = true) :
    ∃ j, decode w = .ok j ∧ j.row = i.row := by
  obtain ⟨hres, hopc⟩ := fields_of_row_selects h
  cases i with
  | gfmul | ghash | derivej0 | inc32 | gctr | derivecommon =>
    exact ⟨_, decode_eq_ok_iff.2 ⟨hres, hopc, fieldTlen_of_row_selects h rfl⟩, rfl⟩
  | computetag _ => exact ⟨.computetag (fieldTlen w), decode_eq_ok_iff.2 ⟨hres, hopc, rfl⟩, rfl⟩
  | encrypt _ => exact ⟨.encrypt (fieldTlen w), decode_eq_ok_iff.2 ⟨hres, hopc, rfl⟩, rfl⟩
  | decrypt _ => exact ⟨.decrypt (fieldTlen w), decode_eq_ok_iff.2 ⟨hres, hopc, rfl⟩, rfl⟩
  | encryptappend _ => exact ⟨.encryptappend (fieldTlen w), decode_eq_ok_iff.2 ⟨hres, hopc, rfl⟩, rfl⟩
  | decryptappended _ => exact ⟨.decryptappended (fieldTlen w), decode_eq_ok_iff.2 ⟨hres, hopc, rfl⟩, rfl⟩

/-- Settles O5: each row is a command's, and a word that selects it decodes to a command of that row. -/
theorem opcodeMapSelectsOneRow : Obligations.OpcodeMapSelectsOneRow := by
  intro w
  have selected {r : OpcodeRow} (hr : r ∈ opcodeMap) (hsel : r.selects w = true) : ∃ i, decode w = .ok i ∧ i.row = r := by
    obtain ⟨i, rfl⟩ := exists_row_of_mem_opcodeMap hr
    exact exists_decode_of_row_selects hsel
  have own {i : Instr} (hw : decode w = .ok i) : i.row.selects w = true := by
    have := Instr.row_selects_encode (wellFormed_of_decode hw)
    rwa [encode_of_decode hw] at this
  refine ⟨⟨fun ⟨r, hr, hsel⟩ => ?_, fun ⟨i, hw⟩ => ⟨i.row, i.row_mem_opcodeMap, own hw⟩⟩,
    fun i hw => ⟨own hw, fun r hr hsel => ?_⟩⟩
  · obtain ⟨i, hw, -⟩ := selected hr hsel
    exact ⟨i, hw⟩
  · obtain ⟨j, hj, hrow⟩ := selected hr hsel
    cases hj.symm.trans hw
    exact hrow.symm

/-! The legal words, 30_encoding.md R85 -/

/-- The format-T commands with TLEN t. -/
def formatTCommands (t : Nat) : List Instr :=
  [.computetag t, .encrypt t, .decrypt t, .encryptappend t, .decryptappended t]

/-- Every command that has a word: six of format N, and five of format T for each of the 256 values of TLEN. -/
def encodableCommands : List Instr :=
  [.gfmul, .ghash, .derivej0, .inc32, .gctr, .derivecommon] ++ (List.range 256).flatMap formatTCommands

theorem mem_encodableCommands {i : Instr} : i ∈ encodableCommands ↔ WellFormed i := by
  cases i <;> simp [encodableCommands, formatTCommands, WellFormed, Instr.tlen]

theorem length_encodableCommands : encodableCommands.length = 1286 := by
  have hT : (fun t => (formatTCommands t).length) = fun _ => 5 := rfl
  rw [encodableCommands, List.length_append, List.length_flatMap, hT, List.map_const', List.length_range,
    List.sum_replicate_nat]
  rfl

theorem tlen_of_mem_formatTCommands {t : Nat} {i : Instr} (h : i ∈ formatTCommands t) : i.tlen = t := by
  simp only [formatTCommands, List.mem_cons, List.not_mem_nil, or_false] at h
  obtain rfl | rfl | rfl | rfl | rfl := h <;> rfl

theorem nodup_encodableCommands : encodableCommands.Nodup := by
  refine List.nodup_append'.2 ⟨by decide, List.nodup_flatMap.2 ⟨fun t _ => ?_, ?_⟩, ?_⟩
  · simp [formatTCommands]
  · exact List.nodup_range.imp fun hne i hi hj =>
      hne ((tlen_of_mem_formatTCommands hi).symm.trans (tlen_of_mem_formatTCommands hj))
  · simp [List.disjoint_left, formatTCommands]

theorem mem_map_encode {w : Word} : w ∈ encodableCommands.map encode ↔ ∃ i, decode w = .ok i := by
  rw [List.mem_map]
  constructor
  · rintro ⟨i, hi, rfl⟩
    exact ⟨i, decode_encode (mem_encodableCommands.1 hi)⟩
  · rintro ⟨i, hw⟩
    exact ⟨i, mem_encodableCommands.2 (wellFormed_of_decode hw), encode_of_decode hw⟩

/-- Settles O6: an illegal word is raised as IllegalCommand, and the legal words are the encodings of the 1286 commands. -/
theorem illegalWordsCompleteWithIllegalCommand : Obligations.IllegalWordsCompleteWithIllegalCommand := by
  refine ⟨fun s w rest hp hw => ?_, encodableCommands.map encode, ?_, ?_, fun w => mem_map_encode⟩
  · rw [← fieldReserved_eq, ← fieldTlen_eq, ← fieldOpc_eq] at hw
    exact ⟨_, (Machine.step_move hp).trans (Machine.issue_illegal (decode_ne_ok hw) _),
      Machine.raised_raise _ .illegalCommand false⟩
  · exact nodup_encodableCommands.map_on fun i hi j hj =>
      encode_inj (mem_encodableCommands.1 hi) (mem_encodableCommands.1 hj)
  · rw [List.length_map, length_encodableCommands]

end Sys2Proof

/-! The multiplier, 40_gf_multiplier.md: its loop, its shift on four words, and GFMUL. -/

namespace Sys2Proof.Machine

/-! The loop, R101 -/

/-- The recursion counts X's bits down; the loop's variable counts up. -/
theorem mulIter_eq_foldl (x : Block) (n : Nat) (w : MulWork) :
    mulIter x n w = (List.range n).foldl (fun w k => mulStep (x.getLsbD (n - 1 - k)) w) w := by
  induction n generalizing w with
  | zero => rfl
  | succ n ih =>
    have hbit (k : Nat) : n + 1 - 1 - (k + 1) = n - 1 - k := by omega
    rw [mulIter, ih, List.range_succ_eq_map, List.foldl_cons, List.foldl_map]
    simp only [Nat.succ_eq_add_one, hbit]
    rfl

/-- Z and V as a pair. -/
def MulWork.toPair (w : MulWork) : Block × Block := (w.z, w.v)

/-- The body of the loop at k, on the pair (Z, V). -/
def procedureStep (x : Block) (zv : Block × Block) (k : Nat) : Block × Block :=
  (if x.getLsbD (127 - k) then zv.1 ^^^ zv.2 else zv.1,
   if zv.2.getLsbD 0 then (zv.2 >>> 1) ^^^ reductionR else zv.2 >>> 1)

theorem procedureStep_toPair (x : Block) (w : MulWork) (k : Nat) :
    procedureStep x w.toPair k = (mulStep (x.getLsbD (127 - k)) w).toPair := rfl

theorem mul_eq_foldl_procedureStep (x y : Block) :
    mul x y = ((List.range 128).foldl (procedureStep x) (0#128, y)).1 := by
  rw [mul, mulIter_eq_foldl]
  have hpair := List.foldl_hom MulWork.toPair (l := List.range 128) (init := ⟨0#128, y⟩) (procedureStep_toPair x)
  exact (congrArg Prod.fst hpair).symm

/-- Settles O12: the recursion is a fold over 0 .. 127, and its iteration on (Z, V) is the procedure's. -/
theorem mulFollowsItsProcedure : Obligations.MulFollowsItsProcedure := mul_eq_foldl_procedureStep

/-! The shift on four words, R103 -/

theorem extractLsb'_zero_one_append {m : Nat} (a : BitVec m) (w : Word) :
    (a ++ w).extractLsb' 0 1 = w.extractLsb' 0 1 := BitVec.extractLsb'_append_eq_of_add_le (by decide)

theorem getLsbD_zero_append {m : Nat} (a : BitVec m) (w : Word) : (a ++ w).getLsbD 0 = w.getLsbD 0 := by
  rw [BitVec.getLsbD_append, if_pos (by decide)]

/-- The bit that leaves the low end of `a` enters the high end of the word behind it. -/
theorem append_ushiftRight_one {m : Nat} (a : BitVec m) (w : Word) :
    (a ++ w) >>> 1 = a >>> 1 ++ (a.extractLsb' 0 1 ++ w.extractLsb' 1 31) := by
  apply BitVec.eq_of_getLsbD_eq
  intro i hi
  rw [BitVec.getLsbD_ushiftRight, BitVec.getLsbD_append, BitVec.getLsbD_append, BitVec.getLsbD_append,
    BitVec.getLsbD_ushiftRight, BitVec.getLsbD_extractLsb', BitVec.getLsbD_extractLsb']
  obtain hlow | rfl | hhigh : i < 31 ∨ i = 31 ∨ 32 ≤ i := by omega
  · simp [hlow, show 1 + i < 32 by omega, show i < 32 by omega]
  · simp
  · simp [show ¬ 1 + i < 32 by omega, show ¬ i < 32 by omega, show 1 + i - 32 = 1 + (i - 32) by omega]

theorem ushiftRight_one_eq_append (w : Word) : w >>> 1 = 0#1 ++ w.extractLsb' 1 31 :=
  BitVec.ushiftRight_eq_extractLsb'_of_lt (by decide)

theorem words_ushiftRight_one (w0 w1 w2 w3 : Word) : (w0 ++ w1 ++ w2 ++ w3) >>> 1 =
    (0#1 ++ w0.extractLsb' 1 31) ++ (w0.extractLsb' 0 1 ++ w1.extractLsb' 1 31) ++
      (w1.extractLsb' 0 1 ++ w2.extractLsb' 1 31) ++ (w2.extractLsb' 0 1 ++ w3.extractLsb' 1 31) := by
  rw [append_ushiftRight_one, append_ushiftRight_one, append_ushiftRight_one, ushiftRight_one_eq_append,
    extractLsb'_zero_one_append, extractLsb'_zero_one_append]

/-- R has bits in its first word only. -/
theorem reductionR_eq_append : reductionR = 0xE1000000#32 ++ 0#32 ++ 0#32 ++ 0#32 := by decide

theorem words_xor_first (w0 w1 w2 w3 r : Word) :
    (w0 ++ w1 ++ w2 ++ w3) ^^^ (r ++ 0#32 ++ 0#32 ++ 0#32) = (w0 ^^^ r) ++ w1 ++ w2 ++ w3 := by
  simp only [BitVec.xor_append, BitVec.xor_zero]

/-- Settles O13: the words of the 128-bit shift, with R in the first of them when the last one's lowest bit is 1. -/
theorem shiftOfFourWords : Obligations.ShiftOfFourWords := by
  intro w0 w1 w2 w3
  rw [mulShift, getLsbD_zero_append, words_ushiftRight_one]
  split
  · rw [reductionR_eq_append]
    exact words_xor_first _ _ _ _ _
  · rw [BitVec.xor_zero]

/-! The corner cases and GFMUL, R102 -/

/-- Iterations that look at no set bit of X leave Z as it is. -/
theorem mulIter_z_of_bits_false {x : Block} {n : Nat} (h : ∀ k < n, x.getLsbD k = false) (w : MulWork) :
    (mulIter x n w).z = w.z := by
  induction n generalizing w with
  | zero => rfl
  | succ n ih =>
    rw [mulIter, ih fun k hk => h k (Nat.lt_succ_of_lt hk), mulStep, h n n.lt_succ_self]
    rfl

@[simp] theorem mul_zero_left (y : Block) : mul 0#128 y = 0#128 :=
  mulIter_z_of_bits_false (fun _ _ => BitVec.getLsbD_zero) _

@[simp] theorem mul_zero_right (x : Block) : mul x 0#128 = 0#128 := mulIter_zero_v x 0#128 128

/-- The block 80..00 is MUL's one on the left: only the first iteration XORs, with V still Y. -/
@[simp] theorem mul_msb_left (y : Block) : mul 0x80000000000000000000000000000000#128 y = y := by
  have hpow : 0x80000000000000000000000000000000#128 = BitVec.twoPow 128 127 := by decide
  have hlow : ∀ k < 127, (BitVec.twoPow 128 127).getLsbD k = false := fun k hk => by
    simp [BitVec.getLsbD_twoPow]; omega
  have hmsb : (BitVec.twoPow 128 127).getLsbD 127 = true := by decide
  rw [hpow, mul, mulIter, mulIter_z_of_bits_false hlow, hmsb]
  exact BitVec.zero_xor

theorem exec_gfmul (s : State) :
    exec .gfmul s = .next (s.setBlk .mz (mul (s.getBlk .mx) (s.getBlk .my))).completeOk := rfl

/-- MUL on R102's worked example, 95_test_vectors.md M12. -/
theorem mul_workedExample :
    mul 0x0388dace60b6a392f328c2b971b2fe78#128 0x66e94bd4ef8a2c3b884cfa59ca342b2e#128 =
      0x5e2ec746917062882c85b0685353deb7#128 := by decide +kernel

/-- Settles O16: GFMUL has one outcome, the product in MZ and a completion OK. -/
theorem gfmulMultiplies : Obligations.GfmulMultiplies := by
  refine ⟨rfl, mul_workedExample, fun s => ?_⟩
  have hmz : (s.setBlk .mz (mul (s.getBlk .mx) (s.getBlk .my))).completeOk.getBlk .mz =
      mul (s.getBlk .mx) (s.getBlk .my) := by simp
  refine ⟨_, exec_gfmul s, hmz, completed_completeOk rfl, frame_setBlk_completeOk s .mz _, ?_, fun hx => ?_⟩
  · rintro (hx | hy)
    · rw [hmz, hx, mul_zero_left]
    · rw [hmz, hy, mul_zero_right]
  · rw [hmz, hx, mul_msb_left]

end Sys2Proof.Machine

/-! GHASH, 41_ghash.md: its recurrence, where it is zero, and the GHASH command. -/

namespace Sys2Proof.Machine

/-! The recurrence, R111 -/

@[simp] theorem ghash_nil (h : Block) : ghash h [] = 0#128 := rfl

theorem ghash_append_singleton (h : Block) (xs : List Block) (x : Block) :
    ghash h (xs ++ [x]) = mul (ghash h xs ^^^ x) h := by
  rw [ghash, List.foldl_append]
  rfl

/-- Settles O17: the fold starts at the zero block, and the last block's step comes last. -/
theorem ghashFollowsItsRecurrence : Obligations.GhashFollowsItsRecurrence :=
  fun h => ⟨ghash_nil h, ghash_append_singleton h⟩

theorem ghash_singleton (h x : Block) : ghash h [x] = mul x h := by
  rw [← List.nil_append [x], ghash_append_singleton, ghash_nil, BitVec.zero_xor]

/-! Where GHASH is zero, R112 and R113 (c) -/

theorem ghash_zero_cons (h : Block) (xs : List Block) : ghash h (0#128 :: xs) = ghash h xs := by
  have hstep : ghashStep h 0#128 0#128 = 0#128 := by rw [ghashStep, BitVec.xor_zero, mul_zero_left]
  rw [ghash, List.foldl_cons, hstep, ghash]

theorem ghash_of_blocks_zero (h : Block) {xs : List Block} (hxs : ∀ b ∈ xs, b = 0#128) : ghash h xs = 0#128 := by
  induction xs with
  | nil => exact ghash_nil h
  | cons x xs ih =>
    obtain ⟨rfl, hrest⟩ := List.forall_mem_cons.1 hxs
    rw [ghash_zero_cons, ih hrest]

@[simp] theorem ghash_zero_left (xs : List Block) : ghash 0#128 xs = 0#128 := by
  obtain rfl | ⟨init, x, rfl⟩ := xs.eq_nil_or_concat
  · exact ghash_nil _
  · rw [List.concat_eq_append, ghash_append_singleton, mul_zero_right]

/-! The worked example of R112, 95_test_vectors.md G4 -/

theorem ghash_workedExample_oneBlock :
    ghash 0x66e94bd4ef8a2c3b884cfa59ca342b2e#128 [0x0388dace60b6a392f328c2b971b2fe78#128] =
      0x5e2ec746917062882c85b0685353deb7#128 := (ghash_singleton _ _).trans mul_workedExample

/-- The second step XORs the length block into the first step's value. -/
theorem ghash_workedExample_twoBlocks :
    ghash 0x66e94bd4ef8a2c3b884cfa59ca342b2e#128
      [0x0388dace60b6a392f328c2b971b2fe78#128, 0x00000000000000000000000000000080#128] =
      0xf38cbb1ad69223dcc3457ae5b6b0f885#128 := by
  have hsecond : mul (0x5e2ec746917062882c85b0685353deb7#128 ^^^ 0x00000000000000000000000000000080#128)
      0x66e94bd4ef8a2c3b884cfa59ca342b2e#128 = 0xf38cbb1ad69223dcc3457ae5b6b0f885#128 := by decide +kernel
  rw [← hsecond, ← ghash_workedExample_oneBlock]
  exact ghash_append_singleton _ [_] _

/-! The GHASH command, R112 -/

/-- R110 and R112: GHASH's validations have one error, for an operand that does not fit or is ragged. -/
theorem firstFailure_checksOf_ghash (p : Params) (s : State) : firstFailure (checksOf p .ghash s) =
    if p.capDin < s.dinlen.toNat ∨ s.dinlen.toNat % 16 ≠ 0 then some .operandLength else none := by
  simp only [checksOf, checkFits, checkWholeBlocks, State.lenOf, capacity, exceeds_eq, firstFailure_cons, firstFailure,
    decide_eq_true_eq, bne_iff_ne]
  by_cases hfit : p.capDin < s.dinlen.toNat
  · rw [if_pos hfit, if_pos (.inl hfit)]
  · simp only [hfit, if_false, false_or]

theorem exec_ghash_of {s : State} {x : List Byte} (hx : HoldsOperand s .din x) (hfit : x.length ≤ Config.capDin)
    (hwhole : x.length % 16 = 0) :
    exec .ghash s = .next (s.setBlk .gy (ghash (s.getBlk .hk) (wholeBlocks x))).completeOk := by
  have hlen : x.length = s.dinlen.toNat := hx.1
  have hpass : ¬ (Config.params.capDin < s.dinlen.toNat ∨ s.dinlen.toNat % 16 ≠ 0) := by
    rw [Config.params_capDin]
    omega
  exact runCommand_ok ((firstFailure_checksOf_ghash _ s).trans (if_neg hpass)) ((State.operand_eq_ok s .din x).2 hx)

theorem exec_ghash_raise {s : State} (h : Config.capDin < s.dinlen.toNat ∨ s.dinlen.toNat % 16 ≠ 0) :
    exec .ghash s = .next (s.raise .operandLength false) :=
  runCommand_raise ((firstFailure_checksOf_ghash Config.params s).trans (if_pos h))

/-- Settles O19: GHASH has the hash of DIN as its one outcome where the operand is legal, and OperandLength where it is not. -/
theorem ghashHashesDin : Obligations.GhashHashesDin := by
  refine ⟨rfl, ghash_workedExample_oneBlock, ghash_workedExample_twoBlocks, fun s x hx hfit hwhole => ?_, fun s h =>
    ⟨_, exec_ghash_raise h, raised_raise s .operandLength false⟩⟩
  have hgy : (s.setBlk .gy (ghash (s.getBlk .hk) (wholeBlocks x))).completeOk.getBlk .gy =
      ghash (s.getBlk .hk) (wholeBlocks x) := by simp
  refine ⟨_, exec_ghash_of hx hfit hwhole, hgy, completed_completeOk rfl, frame_setBlk_completeOk s .gy _, ?_⟩
  rw [hgy]
  rintro (rfl | hk | hzero)
  · exact ghash_nil _
  · rw [hk, ghash_zero_left]
  · exact ghash_of_blocks_zero _ hzero

end Sys2Proof.Machine

/-! Counters, 42_counter.md: the initial counter block, the 32-bit increment, and the commands DERIVEJ0 and INC32. -/

namespace Sys2Proof.Machine

/-! The two branches of the initial counter block, R121 -/

theorem deriveJ0_of_length_eq {iv : List Byte} (h12 : iv.length = 12) (h : Block) :
    deriveJ0 h iv = blockOfBytes (iv ++ be32 1) :=
  if_pos (by rw [bitlen, h12])

theorem deriveJ0_of_length_ne {iv : List Byte} (h12 : iv.length ≠ 12) (h : Block) :
    deriveJ0 h iv = ghash h (wholeBlocks (nonceString iv)) :=
  if_neg (by rw [bitlen]; omega)

theorem length_nonceString (iv : List Byte) : (nonceString iv).length = 16 * ((iv.length + 15) / 16) + 16 := by
  rw [nonceString, List.length_append, List.length_append, length_pad128, length_zeros, length_be64]

/-- Settles O20: a nonce of twelve bytes fills a block with its counter word, and any other is hashed as `nonceString`. -/
theorem initialCounterFollowsItsBranches : Obligations.InitialCounterFollowsItsBranches := by
  refine fun h iv => ⟨fun h12 => ?_, fun h12 => ⟨_, deriveJ0_of_length_ne h12 h, rfl, length_nonceString iv⟩⟩
  have hlen : (iv ++ be32 1).length = 16 := by rw [List.length_append, h12, length_be32]
  rw [deriveJ0_of_length_eq h12, bytesOfBlock_blockOfBytes _ hlen]
  rfl

/-! The DERIVEJ0 command, R122 -/

/-- The nonce check never fails (R120), so DERIVEJ0 has one error. -/
theorem firstFailure_checksOf_derivej0 (p : Params) (s : State) :
    firstFailure (checksOf p .derivej0 s) = if p.capIv < s.ivlen.toNat then some .operandLength else none := by
  simp only [checksOf, checkNonce, checkFits, State.lenOf, capacity, exceeds_eq, firstFailure_cons, firstFailure,
    Nat.mul_mod_right, bne_self_eq_false, Bool.false_eq_true, if_false, decide_eq_true_eq]

theorem exec_derivej0_of {s : State} {iv : List Byte} (hiv : HoldsOperand s .iv iv) (hfit : iv.length ≤ Config.capIv) :
    exec .derivej0 s = .next (s.setBlk .j0 (deriveJ0 (s.getBlk .hk) iv)).completeOk := by
  have hlen : iv.length = s.ivlen.toNat := hiv.1
  have hpass : ¬ Config.params.capIv < s.ivlen.toNat := Nat.not_lt.2 (hlen ▸ hfit)
  exact runCommand_ok ((firstFailure_checksOf_derivej0 _ s).trans (if_neg hpass)) ((State.operand_eq_ok s .iv iv).2 hiv)

theorem getBlk_setBlk_completeOk (s : State) (r : BlkReg) (v : Block) : (s.setBlk r v).completeOk.getBlk r = v := by simp

theorem execOn_derivej0_raise {p : Params} {s : State} (h : p.capIv < s.ivlen.toNat) :
    execOn p .derivej0 s = .next (s.raise .operandLength false) :=
  runCommand_raise ((firstFailure_checksOf_derivej0 p s).trans (if_pos h))

/-! The empty nonce, R125 -/

/-- No padding, eight zero bytes and a zero length: one zero block. -/
theorem nonceString_nil : nonceString [] = bytesOfBlock 0#128 := by decide

@[simp] theorem deriveJ0_nil (h : Block) : deriveJ0 h [] = 0#128 := by
  rw [deriveJ0_of_length_ne (by decide), nonceString_nil, wholeBlocks_bytesOfBlock, ghash_singleton, mul_zero_left]

theorem holdsOperand_nil {s : State} {b : Buf} (h : s.lenOf b = 0#32) : HoldsOperand s b [] :=
  ⟨by rw [h]; rfl, nofun⟩

/-- Settles O21: the hash of one zero block is MUL(0, H), and the empty operand stands in IV in every state. -/
theorem emptyNonceGivesZero : Obligations.EmptyNonceGivesZero :=
  ⟨deriveJ0_nil, fun s hlen => ⟨_, exec_derivej0_of (holdsOperand_nil hlen) (Nat.zero_le _), State.code_completeOk _,
    (getBlk_setBlk_completeOk s .j0 _).trans (deriveJ0_nil _)⟩⟩

/-- DERIVEJ0 on R122's worked example, 95_test_vectors.md J3. -/
theorem deriveJ0_workedExample :
    deriveJ0 0xb83b533708bf535d0aa6e52980d53b78#128 [0xca#8, 0xfe#8, 0xba#8, 0xbe#8, 0xfa#8, 0xce#8, 0xdb#8, 0xad#8] =
      0xc43a83c4c4badec4354ca984db252f7d#128 := by decide +kernel

/-- Settles O24: DERIVEJ0 has the nonce's block as its one outcome where IVLEN fits, OperandLength where it does not. -/
theorem derivej0Derives : Obligations.Derivej0Derives := by
  refine ⟨rfl, deriveJ0_workedExample, fun s iv hiv hfit => ?_, fun s => rfl, fun p s h =>
    ⟨_, execOn_derivej0_raise h, raised_raise s .operandLength false⟩⟩
  have hj0 := getBlk_setBlk_completeOk s .j0 (deriveJ0 (s.getBlk .hk) iv)
  refine ⟨_, exec_derivej0_of hiv hfit, hj0, completed_completeOk rfl, frame_setBlk_completeOk s .j0 _,
    fun h12 h => ?_, fun hnil => ?_⟩
  · rw [hj0, deriveJ0_of_length_eq h12, deriveJ0_of_length_eq h12]
  · rw [hj0, hnil, deriveJ0_nil]

/-! The increment on the two words of a block, R123 -/

@[simp] theorem extractLsb'_high_inc32 (b : Block) : (inc32 b).extractLsb' 32 96 = b.extractLsb' 32 96 :=
  BitVec.extractLsb'_append_eq_left

@[simp] theorem extractLsb'_low_inc32 (b : Block) : (inc32 b).extractLsb' 0 32 = b.extractLsb' 0 32 + 1#32 :=
  BitVec.extractLsb'_append_eq_right

theorem toNat_extractLsb'_high (b : Block) : (b.extractLsb' 32 96).toNat = b.toNat / 2 ^ 32 := by
  rw [BitVec.extractLsb'_toNat, Nat.shiftRight_eq_div_pow, Nat.mod_eq_of_lt (by omega)]

theorem toNat_extractLsb'_low (b : Block) : (b.extractLsb' 0 32).toNat = b.toNat % 2 ^ 32 := by
  rw [BitVec.extractLsb'_toNat, Nat.shiftRight_zero]

theorem block_eq_of_words {b c : Block} (hhigh : b.extractLsb' 32 96 = c.extractLsb' 32 96)
    (hlow : b.extractLsb' 0 32 = c.extractLsb' 0 32) : b = c := by
  have hwords (d : Block) : d.extractLsb' 32 96 ++ d.extractLsb' 0 32 = d :=
    BitVec.extractLsb'_append_extractLsb' (w := 96) (len := 32)
  rw [← hwords b, hhigh, hlow, hwords]

/-- Bytes 0 to 11 are cut from the upper 96 bits. -/
theorem blockByte_eq_of_high {b c : Block} (hhigh : b.extractLsb' 32 96 = c.extractLsb' 32 96) {j : Nat} (hj : j < 12) :
    blockByte b j = blockByte c j := by
  refine BitVec.eq_of_getLsbD_eq fun i hi => ?_
  have hbit := congrArg (·.getLsbD (88 - 8 * j + i)) hhigh
  have hpos : 120 - 8 * j + i = 32 + (88 - 8 * j + i) := by omega
  have hlt : 88 - 8 * j + i < 96 := by omega
  rw [getLsbD_blockByte b j i hi, getLsbD_blockByte c j i hi, hpos]
  simpa [BitVec.getLsbD_extractLsb', hlt] using hbit

theorem take_bytesOfBlock_eq_of_high {b c : Block} (hhigh : b.extractLsb' 32 96 = c.extractLsb' 32 96) :
    (bytesOfBlock b).take 12 = (bytesOfBlock c).take 12 := by
  refine List.ext_getElem (by simp) fun j hj _ => ?_
  have hj12 : j < 12 := by simpa using hj
  rw [List.getElem_take, List.getElem_take, getElem_bytesOfBlock, getElem_bytesOfBlock, blockByte_eq_of_high hhigh hj12]

/-- Settles O22: INC32 keeps the high word of 96 bits and adds 1 to the low word of 32. -/
theorem inc32AddsOneToTheLowWord : Obligations.Inc32AddsOneToTheLowWord := by
  refine fun b => ⟨?_, ?_, take_bytesOfBlock_eq_of_high (extractLsb'_high_inc32 b)⟩
  · rw [← toNat_extractLsb'_high, ← toNat_extractLsb'_high, extractLsb'_high_inc32]
  · rw [← toNat_extractLsb'_low, ← toNat_extractLsb'_low, extractLsb'_low_inc32, BitVec.toNat_add]
    rfl

/-! Repeated increments and the INC32 command, R124 -/

@[simp] theorem extractLsb'_high_iterate_inc32 (b : Block) (n : Nat) :
    (inc32^[n] b).extractLsb' 32 96 = b.extractLsb' 32 96 := by
  induction n with
  | zero => rfl
  | succ n ih => rw [Function.iterate_succ_apply', extractLsb'_high_inc32, ih]

@[simp] theorem extractLsb'_low_iterate_inc32 (b : Block) (n : Nat) :
    (inc32^[n] b).extractLsb' 0 32 = b.extractLsb' 0 32 + BitVec.ofNat 32 n := by
  induction n with
  | zero => exact (BitVec.add_zero _).symm
  | succ n ih => rw [Function.iterate_succ_apply', extractLsb'_low_inc32, ih, BitVec.add_assoc, ← BitVec.ofNat_add]

/-- The low word runs through all its 2^32 values and the high word stays. -/
theorem iterate_inc32_of_dvd (b : Block) {n : Nat} (hn : 2 ^ 32 ∣ n) : inc32^[n] b = b := by
  have hzero : BitVec.ofNat 32 n = 0#32 :=
    BitVec.eq_of_toNat_eq ((BitVec.toNat_ofNat n 32).trans (Nat.mod_eq_zero_of_dvd hn))
  refine block_eq_of_words (extractLsb'_high_iterate_inc32 b n) ?_
  rw [extractLsb'_low_iterate_inc32, hzero, BitVec.add_zero]

theorem exec_inc32 (s : State) : exec .inc32 s = .next (s.setBlk .cb (inc32 (s.getBlk .cb))).completeOk := rfl

/-- Settles O25: INC32 has one outcome, and 2^32 is the period of the low word. -/
theorem inc32Increments : Obligations.Inc32Increments :=
  ⟨rfl, by decide, fun b => iterate_inc32_of_dvd b dvd_rfl, fun s =>
    ⟨_, exec_inc32 s, getBlk_setBlk_completeOk s .cb _, completed_completeOk rfl, frame_setBlk_completeOk s .cb _⟩⟩

end Sys2Proof.Machine

/-! Validation errors, 60_exceptions.md R184: what every command does when one of its checks fails. -/

namespace Sys2Proof.Machine

section Checks
variable {α : Type} {p : Params} {i : Instr} {s : State}

theorem exec_raise {k : ErrorKind} (h : firstFailure (checksOf Config.params i s) = some k) :
    exec i s = .next (s.raise k (hasDout i)) := by
  cases i with
  | gfmul | inc32 => cases h
  | ghash | derivej0 | gctr | derivecommon | computetag _ | encrypt _ | decrypt _ | encryptappend _ | decryptappended _ =>
    exact runCommand_raise h

theorem callsAfterChecks_raise {k : ErrorKind} (h : firstFailure (checksOf p i s) = some k) (ops : Except Fault α)
    (key : α → List Byte) (blocks : α → List Block) : callsAfterChecks p i ops key blocks s = [] := by
  simp only [callsAfterChecks, h]

theorem callsAfterChecks_ok {x : α} {ops : Except Fault α} (h : firstFailure (checksOf p i s) = none)
    (hx : ops = .ok x) (key : α → List Byte) (blocks : α → List Block) :
    callsAfterChecks p i ops key blocks s = (blocks x).map fun b => { key := key x, block := b } := by
  simp only [callsAfterChecks, h, hx]

theorem portCalls_raise {k : ErrorKind} (h : firstFailure (checksOf p i s) = some k) : portCalls p i s = [] := by
  cases i with
  | gfmul | ghash | derivej0 | inc32 => rfl
  | gctr | derivecommon | computetag _ | encrypt _ | decrypt _ | encryptappend _ | decryptappended _ =>
    exact callsAfterChecks_raise h _ _ _

end Checks

/-- The first check that fails fixes the code, the ending and the empty list of calls, whichever command it is. -/
theorem raisesItsErrors (i : Instr) : RaisesItsErrors i := by
  intro s c hc
  obtain ⟨k, hk, rfl⟩ := Option.map_eq_some_iff.1 ((validationCode_eq i s).symm.trans hc)
  exact ⟨_, exec_raise hk, raised_raise s k (hasDout i), portCalls_raise hk⟩

end Sys2Proof.Machine

/-! Counter mode, 43_gctr.md: the counter blocks, the key stream and the GCTR command. -/

namespace Sys2Proof.Machine

/-! The counter blocks, R130 -/

theorem counterBlocks_eq_iterate (icb : Block) (n : Nat) : counterBlocks icb n = List.iterate inc32 icb n := by
  induction n generalizing icb with
  | zero => rfl
  | succ n ih => rw [counterBlocks, ih, List.iterate]

@[simp] theorem length_counterBlocks (icb : Block) (n : Nat) : (counterBlocks icb n).length = n := by
  rw [counterBlocks_eq_iterate, List.length_iterate]

@[simp] theorem getElem_counterBlocks (icb : Block) (n i : Nat) (h : i < (counterBlocks icb n).length) :
    (counterBlocks icb n)[i] = inc32^[i] icb := by
  simp only [counterBlocks_eq_iterate, List.getElem_iterate]

theorem gctrCalls_eq_map_range (icb : Block) (s : List Byte) :
    gctrCalls icb s = (List.range ((s.length + 15) / 16)).map fun i => inc32^[i] icb := by
  rw [gctrCalls, blockCount, counterBlocks_eq_iterate, List.range_map_iterate]

/-- Settles O23: block i + 1 is the ICB incremented i times, which keeps the high word and adds i to the low word. -/
theorem counterBlocksCountUp : Obligations.CounterBlocksCountUp := by
  refine fun icb n => ⟨length_counterBlocks icb n, fun i h => ?_⟩
  rw [getElem_counterBlocks]
  constructor
  · rw [← toNat_extractLsb'_high, ← toNat_extractLsb'_high, extractLsb'_high_iterate_inc32]
  · rw [← toNat_extractLsb'_low, ← toNat_extractLsb'_low, extractLsb'_low_iterate_inc32, BitVec.toNat_add,
      BitVec.toNat_ofNat, Nat.add_mod_mod]

/-! The key stream, R131 -/

theorem getElem_gctr (e : Block → Block) (icb : Block) (s : List Byte) (j : Nat) (h : j < (gctr e icb s).length) :
    (gctr e icb s)[j] = s[j]'(length_gctr e icb s ▸ h) ^^^ blockByte (e (inc32^[j / 16] icb)) (j % 16) :=
  getElem_gctrFrom e icb _ s (by omega) j h

/-- A string of one block, whole or not, takes the leading bytes of E on the ICB itself. -/
theorem gctr_of_one_block (e : Block → Block) (icb : Block) {s : List Byte} (hne : s ≠ []) (hle : s.length ≤ 16) :
    gctr e icb s = xorBytes s (truncate (e icb) (bitlen s)) := by
  rw [gctr, cut_eq_cons s hne, List.take_of_length_le hle, List.drop_eq_nil_of_le hle, cut_nil, gctrFrom, gctrFrom,
    List.append_nil]

/-- Settles O26: the loop's length and bytes, and its calls as the iterates of INC32. -/
theorem gctrXorsTheKeyStream : Obligations.GctrXorsTheKeyStream := by
  refine fun e icb s => ⟨length_gctr e icb s, fun j _ h' => ?_, gctrCalls_eq_map_range icb s⟩
  rw [getElem_gctr, getElem_bytesOfBlock]

/-! The GCTR command, R133 -/

/-- GCTR on R133's worked example, 95_test_vectors.md T3: a partial block. -/
theorem gctr_workedExample {e : Block → Block} (he : e 2#128 = 0x0388dace60b6a392f328c2b971b2fe78#128) :
    gctr e 2#128 [0x01#8, 0x02#8, 0x03#8, 0x04#8, 0x05#8] = [0x02#8, 0x8a#8, 0xd9#8, 0xca#8, 0x65#8] := by
  rw [gctr_of_one_block e _ (by decide) (by decide), he]
  decide

theorem validationCode_gctr_of_badKey {s : State} (h : s.keylen.toNat ∉ [16, 24, 32]) :
    validationCode .gctr s = some 1#4 := if_pos ⟨rfl, h⟩

theorem validationCode_gctr_of_capDin_lt {s : State} (hk : s.keylen.toNat ∈ [16, 24, 32])
    (hd : Config.capDin < s.dinlen.toNat) : validationCode .gctr s = some 6#4 := by
  have hkey : ¬ badKey .gctr s := fun h => h.2 hk
  have htlen : ¬ badTlen .gctr := nofun
  rw [validationCode, if_neg hkey, if_neg htlen, if_pos (.inr (.inr (.inl ⟨rfl, hd⟩)))]

/-- R175: one provider call a block, under the key that KEY holds. -/
theorem portCalls_gctr_of {s : State} {key x : List Byte} (hk : HoldsOperand s .key key) (hx : HoldsOperand s .din x)
    (hlegal : key.length ∈ [16, 24, 32]) (hfit : x.length ≤ Config.capDin) :
    portCalls Config.params .gctr s = (gctrCalls (s.getBlk .cb) x).map fun b => { key := key, block := b } := by
  have hv : validationCode .gctr s = none :=
    validationCode_eq_none_of (fun _ => hk.1 ▸ hlegal) nofun nofun nofun (fun _ => hx.1 ▸ hfit) nofun nofun
  have hops := (gctrOperands_eq_ok s { key := key, din := x }).2 ⟨hk, hx⟩
  exact callsAfterChecks_ok (firstFailure_eq_none.2 hv) hops _ _

theorem doutlen_putDout_of_length_eq {s : State} {r : List Byte} {n : Word} (h : r.length = n.toNat) :
    (s.putDout r).completeOk.doutlen = n := by
  rw [State.completeOk_doutlen, State.putDout_doutlen, h, BitVec.ofNat_toNat, BitVec.setWidth_eq]

/-- Settles O28: GCTR has DIN under the key stream as its one outcome where the operands are legal, and its first failing check's
error where they are not. -/
theorem gctrEncryptsDin : Obligations.GctrEncryptsDin := by
  refine ⟨rfl, fun e he => gctr_workedExample he, fun s key x hk hx hlegal hfit => ?completes, fun s hkey => ?badKey,
    fun s hkey hdin => ?tooLong⟩
  case completes =>
    have hlen : (gctr (Config.blockCipher key) (s.getBlk .cb) x).length = x.length := length_gctr _ _ _
    refine ⟨_, exec_gctr_of hk hx hlegal hfit, holdsResult_putDout s _ (hlen ▸ hx.length_lt),
      doutlen_putDout_of_length_eq (hlen.trans hx.1), completed_completeOk rfl, ?_, ?_⟩
    · rw [← hlen]
      exact frame_putDout_completeOk s _
    · rw [portCalls_gctr_of hk hx hlegal hfit, gctrCalls_eq_map_range, List.map_map]
      rfl
  case badKey =>
    obtain ⟨t, hexec, hraised, -⟩ := raisesItsErrors .gctr s _ (validationCode_gctr_of_badKey hkey)
    exact ⟨t, hexec, hraised⟩
  case tooLong =>
    obtain ⟨t, hexec, hraised, -⟩ := raisesItsErrors .gctr s _ (validationCode_gctr_of_capDin_lt hkey hdin)
    exact ⟨t, hexec, hraised⟩

end Sys2Proof.Machine

/-! The tag engine, 44_tag_engine.md: the hashed string, the tag, and the commands DERIVECOMMON and COMPUTETAG. -/

namespace Sys2Proof.Machine

/-! The block of the two bit lengths, R142 -/

theorem getElem_bigEndian (k n j : Nat) (h : j < (bigEndian k n).length) :
    (bigEndian k n)[j] = BitVec.ofNat 8 (n >>> (8 * (k - 1 - j))) := by
  induction k generalizing j with
  | zero => exact absurd h (Nat.not_lt_zero j)
  | succ k ih =>
    cases j with
    | zero => rfl
    | succ j =>
      have hlast : k + 1 - 1 - (j + 1) = k - 1 - j := by omega
      simp only [bigEndian, List.getElem_cons_succ, ih, hlast]

theorem ofNat_shiftRight_eq_extractLsb' (n : Nat) {m : Nat} (h : m + 8 ≤ 64) :
    BitVec.ofNat 8 (n >>> m) = (BitVec.ofNat 64 n).extractLsb' m 8 := by
  refine BitVec.eq_of_getLsbD_eq fun i hi => ?_
  have hpos : m + i < 64 := by omega
  rw [BitVec.getLsbD_extractLsb', BitVec.getLsbD_ofNat, BitVec.getLsbD_ofNat, Nat.testBit_shiftRight]
  simp only [hi, hpos, decide_true, Bool.true_and]

theorem getElem_be64 (n j : Nat) (h : j < (be64 n).length) :
    (be64 n)[j] = (BitVec.ofNat 64 n).extractLsb' (56 - 8 * j) 8 := by
  have hj : j < 8 := length_be64 n ▸ h
  have hpos : 8 * (8 - 1 - j) = 56 - 8 * j := by omega
  simp only [be64, getElem_bigEndian, hpos]
  exact ofNat_shiftRight_eq_extractLsb' n (by omega)

theorem blockByte_append_of_lt (x y : BitVec 64) {j : Nat} (hj : j < 8) :
    blockByte (x ++ y) j = x.extractLsb' (56 - 8 * j) 8 := by
  have hpos : 120 - 8 * j - 64 = 56 - 8 * j := by omega
  rw [blockByte, BitVec.extractLsb'_append_eq_of_le (by omega), hpos]

theorem blockByte_append_of_le (x y : BitVec 64) {j : Nat} (hj : 8 ≤ j) (hj' : j < 16) :
    blockByte (x ++ y) j = y.extractLsb' (56 - 8 * (j - 8)) 8 := by
  have hpos : 120 - 8 * j = 56 - 8 * (j - 8) := by omega
  rw [blockByte, BitVec.extractLsb'_append_eq_of_add_le (by omega), hpos]

theorem be64_append_be64 (m n : Nat) :
    be64 m ++ be64 n = bytesOfBlock (BitVec.ofNat 64 m ++ BitVec.ofNat 64 n) := by
  refine List.ext_getElem (by simp) fun j _ h => ?_
  have hj : j < 16 := by simpa using h
  rw [getElem_bytesOfBlock]
  by_cases hfirst : j < 8
  · rw [List.getElem_append_left (by simpa using hfirst), getElem_be64, blockByte_append_of_lt _ _ hfirst]
  · have hsecond : 8 ≤ j := Nat.le_of_not_lt hfirst
    rw [List.getElem_append_right (by simpa using hsecond), getElem_be64, blockByte_append_of_le _ _ hsecond hj]
    simp only [length_be64]

/-! The hashed string, R142 -/

theorem length_pad128_mod (s : List Byte) : (pad128 s).length % 16 = 0 := by
  rw [length_pad128, Nat.mul_mod_right]

theorem wholeBlocks_tagString (a c : List Byte) : wholeBlocks (tagString a c) =
    wholeBlocks (pad128 a) ++ wholeBlocks (pad128 c) ++ [BitVec.ofNat 64 (bitlen a) ++ BitVec.ofNat 64 (bitlen c)] := by
  rw [tagString, List.append_assoc, be64_append_be64, List.append_assoc, wholeBlocks_append _ _ (length_pad128_mod a),
    wholeBlocks_append _ _ (length_pad128_mod c), wholeBlocks_bytesOfBlock, List.append_assoc]

theorem length_wholeBlocks_pad128 (s : List Byte) : (wholeBlocks (pad128 s)).length = (s.length + 15) / 16 := by
  rw [length_wholeBlocks, length_pad128]
  omega

theorem length_wholeBlocks_tagString (a c : List Byte) :
    (wholeBlocks (tagString a c)).length = (a.length + 15) / 16 + (c.length + 15) / 16 + 1 := by
  rw [wholeBlocks_tagString, List.length_append, List.length_append, length_wholeBlocks_pad128,
    length_wholeBlocks_pad128, List.length_singleton]

theorem pad128_of_whole {s : List Byte} (h : s.length % 16 = 0) : pad128 s = s := by
  rw [pad128, h]
  exact List.append_nil s

theorem wholeBlocks_tagString_nil : wholeBlocks (tagString [] []) = [0#128] := wholeBlocks_tagString [] []

/-- Settles O29: padded segments and the length block are whole blocks, so the cuts fall between them. -/
theorem tagStringHasItsBlocks : Obligations.TagStringHasItsBlocks :=
  ⟨fun a c => ⟨wholeBlocks_tagString a c, length_wholeBlocks_tagString a c⟩, fun _ => pad128_of_whole,
    wholeBlocks_tagString_nil⟩

/-! The tag, R143 -/

theorem truncate_whole (v : Block) : truncate v 128 = bytesOfBlock v :=
  List.take_of_length_le (length_bytesOfBlock v).le

theorem xorBytes_bytesOfBlock (a b : Block) : xorBytes (bytesOfBlock a) (bytesOfBlock b) = bytesOfBlock (a ^^^ b) := by
  refine List.ext_getElem (by simp) fun j _ _ => ?_
  rw [getElem_xorBytes, getElem_bytesOfBlock, getElem_bytesOfBlock, getElem_bytesOfBlock]
  exact BitVec.extractLsb'_xor.symm

/-- One whole block under the key stream is its XOR with E on the ICB itself. -/
theorem gctr_bytesOfBlock (e : Block → Block) (icb b : Block) :
    gctr e icb (bytesOfBlock b) = bytesOfBlock (b ^^^ e icb) := by
  have hne : bytesOfBlock b ≠ [] := List.ne_nil_of_length_pos (by rw [length_bytesOfBlock]; decide)
  have hbits : bitlen (bytesOfBlock b) = 128 := by rw [bitlen, length_bytesOfBlock]
  rw [gctr_of_one_block e icb hne (length_bytesOfBlock b).le, hbits, truncate_whole, xorBytes_bytesOfBlock]

theorem computeTag_eq (e : Block → Block) (h j0 : Block) (a c : List Byte) (t : Nat) :
    computeTag e h j0 a c t = (bytesOfBlock (ghash h (wholeBlocks (tagString a c)) ^^^ e j0)).take (t / 8) := by
  rw [computeTag, gctr_bytesOfBlock, blockOfBytes_bytesOfBlock, truncate]

theorem length_computeTag {t : Nat} (ht : t ≤ 128) (e : Block → Block) (h j0 : Block) (a c : List Byte) :
    (computeTag e h j0 a c t).length = t / 8 := by
  have hle : t / 8 ≤ 16 := by omega
  rw [computeTag_eq, List.length_take, length_bytesOfBlock, Nat.min_eq_left hle]

/-- 00_scope.md R6: no legal tag is longer than a block. -/
theorem tagLen_le : ∀ t ∈ [96, 104, 112, 120, 128], t ≤ 128 := by decide

/-- Settles O30: the one GCTR block XORs the hash with E(J0), and the leading t/8 bytes are left. -/
theorem tagIsTheMaskedHash : Obligations.TagIsTheMaskedHash :=
  fun e h j0 a c t ht => ⟨computeTag_eq e h j0 a c t, length_computeTag (tagLen_le t ht) e h j0 a c⟩

/-- The hash of the zero block is 0, so only the mask is left. -/
theorem computeTag_nil_nil (e : Block → Block) (h j0 : Block) (t : Nat) :
    computeTag e h j0 [] [] t = (bytesOfBlock (e j0)).take (t / 8) := by
  rw [computeTag_eq, wholeBlocks_tagString_nil, ghash_singleton, mul_zero_left, BitVec.zero_xor]

/-! The DERIVECOMMON command, R141 -/

/-- J0 of R141's worked example, 95_test_vectors.md Q3: the nonce and the counter word 1. -/
theorem deriveJ0_workedExample_twelveBytes (h : Block) :
    deriveJ0 h [0xca#8, 0xfe#8, 0xba#8, 0xbe#8, 0xfa#8, 0xce#8, 0xdb#8, 0xad#8, 0xde#8, 0xca#8, 0xf8#8, 0x88#8] =
      0xcafebabefacedbaddecaf88800000001#128 := by
  rw [deriveJ0_of_length_eq rfl]
  decide

/-- The nonce check never fails (R120), so DERIVECOMMON has two errors, the key's first. -/
theorem firstFailure_checksOf_derivecommon (p : Params) (s : State) : firstFailure (checksOf p .derivecommon s) =
    if s.keylen.toNat ∉ [16, 24, 32] then some .invalidKeyLength
    else if p.capIv < s.ivlen.toNat then some .operandLength else none := by
  simp only [checksOf, checkKey, checkNonce, checkFits, State.lenOf, capacity, exceeds_eq, legalKeyLen_eq,
    firstFailure_cons, firstFailure, Nat.mul_mod_right, bne_self_eq_false, Bool.not_eq_true',
    decide_eq_false_iff_not, decide_eq_true_eq]

theorem execOn_derivecommon_of_badKey (p : Params) {s : State} (hkey : s.keylen.toNat ∉ [16, 24, 32]) :
    execOn p .derivecommon s = .next (s.raise .invalidKeyLength false) :=
  runCommand_raise ((firstFailure_checksOf_derivecommon p s).trans (if_pos hkey))

theorem execOn_derivecommon_of_capIv_lt {p : Params} {s : State} (hkey : s.keylen.toNat ∈ [16, 24, 32])
    (hiv : p.capIv < s.ivlen.toNat) : execOn p .derivecommon s = .next (s.raise .operandLength false) := by
  refine runCommand_raise ((firstFailure_checksOf_derivecommon p s).trans ?_)
  rw [if_neg (not_not.2 hkey), if_pos hiv]

/-- R175: one call, on the zero block. -/
theorem portCalls_derivecommon_of {s : State} {key iv : List Byte} (hk : HoldsOperand s .key key)
    (hiv : HoldsOperand s .iv iv) (hlegal : key.length ∈ [16, 24, 32]) (hfit : iv.length ≤ Config.capIv) :
    portCalls Config.params .derivecommon s = [{ key := key, block := 0#128 }] := by
  have hv : validationCode .derivecommon s = none :=
    validationCode_eq_none_of (fun _ => hk.1 ▸ hlegal) nofun (fun _ => hiv.1 ▸ hfit) nofun nofun nofun nofun
  have hops := (deriveOperands_eq_ok s { key := key, iv := iv }).2 ⟨hk, hiv⟩
  exact callsAfterChecks_ok (firstFailure_eq_none.2 hv) hops _ _

theorem Frame.trans {s t u : State} {r r' : List BlkReg} {c c' : List Nat} {x : Buf → Nat → Prop} (h : Frame s t r c x)
    (h' : Frame t u r' c' x) : Frame s u (r ++ r') (c ++ c') x := by
  obtain ⟨hblks, hcsrs, hbytes, hpending, hanswers, hresets⟩ := h
  obtain ⟨hblks', hcsrs', hbytes', hpending', hanswers', hresets'⟩ := h'
  refine ⟨fun q hq => ?_, fun n hn => ?_, fun b a hn => (hbytes' b a hn).trans (hbytes b a hn),
    hpending'.trans hpending, hanswers'.trans hanswers, hresets'.trans hresets⟩
  · rw [List.mem_append, not_or] at hq
    exact (hblks' q hq.2).trans (hblks q hq.1)
  · rw [List.mem_append, not_or] at hn
    exact (hcsrs' n hn.2).trans (hcsrs n hn.1)

/-- Settles O31: DERIVECOMMON has the two derived blocks as its one outcome where the operands are legal, and its first failing
check's error where they are not. -/
theorem derivecommonDerives : Obligations.DerivecommonDerives := by
  refine ⟨rfl, deriveJ0_workedExample_twelveBytes, fun s key iv hk hiv hlegal hfit => ?completes, fun s hkey =>
    ⟨_, execOn_derivecommon_of_badKey Config.params hkey, raised_raise s .invalidKeyLength false⟩, fun s => rfl,
    fun p s hkey hlong => ⟨_, execOn_derivecommon_of_capIv_lt hkey hlong, raised_raise s .operandLength false⟩⟩
  case completes =>
    have hj0 := getBlk_setBlk_completeOk (s.setBlk .hk (Config.blockCipher key 0#128)) .j0
      (deriveJ0 (Config.blockCipher key 0#128) iv)
    refine ⟨_, exec_derivecommon_of hk hiv hlegal hfit, by simp [hashSubkey], hj0, completed_completeOk rfl,
      (frame_setBlk s .hk _).trans (frame_setBlk_completeOk _ .j0 _), portCalls_derivecommon_of hk hiv hlegal hfit,
      fun h12 h => ?_, fun hnil => ?_⟩
    · exact hj0.trans ((deriveJ0_of_length_eq h12 _).trans (deriveJ0_of_length_eq h12 h).symm)
    · exact hj0.trans (hnil ▸ deriveJ0_nil _)

/-! The COMPUTETAG command, R144 and R145 -/

/-- 30_encoding.md R81: OPC and TLEN have bits of their own, so a command word is the OR of the two fields. -/
theorem encode_eq_or {i : Instr} (h : WellFormed i) :
    encode i = BitVec.ofNat 32 i.opcode ||| (BitVec.ofNat 32 i.tlen <<< 8) := by
  have hopc : i.opcode < 2 ^ 8 := i.opcode_lt.trans (by decide)
  have htlen : i.tlen < 256 := h
  have hshift : i.tlen <<< 8 = 256 * i.tlen := by rw [Nat.shiftLeft_eq, Nat.mul_comm]
  refine BitVec.eq_of_toNat_eq ?_
  rw [toNat_encode h, BitVec.toNat_or, BitVec.toNat_shiftLeft, BitVec.toNat_ofNat, BitVec.toNat_ofNat,
    Nat.mod_eq_of_lt (by omega), Nat.mod_eq_of_lt (a := i.tlen) (by omega), Nat.mod_eq_of_lt (by omega), Nat.or_comm,
    ← Nat.shiftLeft_add_eq_or_of_lt hopc, hshift, Nat.add_comm]

/-- The tag of R144's worked example, 95_test_vectors.md Q9: the hash of R112's worked example under the mask E(1). -/
theorem computeTag_workedExample {e : Block → Block} (he : VectorPairs e) :
    computeTag e (e 0#128) 1#128 [] (bytesOfBlock 0x0388dace60b6a392f328c2b971b2fe78#128) 128 =
      bytesOfBlock 0xab6e47d42cec13bdf53a67b21257bddf#128 := by
  obtain ⟨h0, h1, -⟩ := he
  have hblocks : wholeBlocks (tagString [] (bytesOfBlock 0x0388dace60b6a392f328c2b971b2fe78#128)) =
      [0x0388dace60b6a392f328c2b971b2fe78#128, 0x00000000000000000000000000000080#128] := by
    rw [wholeBlocks_tagString, pad128_of_whole (s := bytesOfBlock _) (by rw [length_bytesOfBlock]), wholeBlocks_bytesOfBlock]
    rfl
  rw [computeTag_eq, hblocks, h0, h1, ghash_workedExample_twoBlocks, List.take_of_length_le (by simp)]
  rfl

/-- R175: one call, on J0. -/
theorem portCalls_computetag_of {s : State} {t : Nat} {key a c : List Byte} (hk : HoldsOperand s .key key)
    (ha : HoldsOperand s .aad a) (hc : HoldsOperand s .din c) (hlegal : key.length ∈ [16, 24, 32])
    (ht : t ∈ [96, 104, 112, 120, 128]) (hafit : a.length ≤ Config.capAad) (hcfit : c.length ≤ Config.capDin) :
    portCalls Config.params (.computetag t) s = [{ key := key, block := s.getBlk .j0 }] := by
  have hv : validationCode (.computetag t) s = none :=
    validationCode_eq_none_of (fun _ => hk.1 ▸ hlegal) (fun _ => ht) nofun (fun _ => ha.1 ▸ hafit)
      (fun _ => hc.1 ▸ hcfit) nofun nofun
  have hops := (tagOperands_eq_ok s { key := key, aad := a, din := c }).2 ⟨hk, ha, hc⟩
  exact callsAfterChecks_ok (firstFailure_eq_none.2 hv) hops _ _

/-- Settles O32: COMPUTETAG has the tag and its zero fill as its one outcome where the operands are legal, and its first failing
check's error where they are not. -/
theorem computetagWritesTheTag : Obligations.ComputetagWritesTheTag := by
  refine ⟨fun t ht => encode_eq_or (i := .computetag t) ht, fun _ => computeTag_workedExample,
    fun s tlen key aad c hk ha hc hlegal ht hafit hcfit => ?completes, fun tlen => raisesItsErrors (.computetag tlen)⟩
  case completes =>
    have hheld := holdsTag_putTag s (computeTag (Config.blockCipher key) (s.getBlk .hk) (s.getBlk .j0) aad c tlen)
    refine ⟨_, exec_computetag_of hk ha hc hlegal ht hafit hcfit, hheld, completed_completeOk rfl,
      frame_putTag_completeOk s _ (length_computeTag_le _ _ _ _ _ _),
      portCalls_computetag_of hk ha hc hlegal ht hafit hcfit, fun haad hdin => ?_⟩
    subst haad hdin
    rwa [← computeTag_nil_nil _ (s.getBlk .hk) (s.getBlk .j0) tlen]

end Sys2Proof.Machine

/-! The one-shot commands, 45_aead_ops.md: the tag comparison, their provider calls, and what each leaves on ready operands. -/

namespace Sys2Proof.Machine

/-! The tag comparison, R153 -/

theorem tagDiff_eq_zero_iff {a b : List Byte} (h : a.length = b.length) : tagDiff a b = 0#8 ↔ a = b := by
  induction a generalizing b with
  | nil => rw [List.eq_nil_of_length_eq_zero h.symm]; exact iff_of_true rfl rfl
  | cons x a ih =>
    cases b with
    | nil => cases h
    | cons y b => rw [tagDiff_cons, ih (Nat.succ.inj h), List.cons.injEq]

theorem tagEq_iff {a b : List Byte} (h : a.length = b.length) : tagEq a b = true ↔ a = b :=
  beq_iff_eq.trans (tagDiff_eq_zero_iff h)

/-- Settles O37: no difference of two bytes survives the OR unless the bytes differ. -/
theorem tagComparisonIsEquality : Obligations.TagComparisonIsEquality := fun _ _ => tagEq_iff

/-! J0 and the data counter blocks, R151 -/

/-- The low word tells apart the increments below its period. -/
theorem iterate_inc32_inj {b : Block} {i j : Nat} (hi : i < 2 ^ 32) (hj : j < 2 ^ 32) (h : inc32^[i] b = inc32^[j] b) :
    i = j := by
  have hlow := congrArg (·.extractLsb' 0 32) h
  simp only [extractLsb'_low_iterate_inc32, BitVec.add_right_inj] at hlow
  have hnat := congrArg BitVec.toNat hlow
  rwa [BitVec.toNat_ofNat, BitVec.toNat_ofNat, Nat.mod_eq_of_lt hi, Nat.mod_eq_of_lt hj] at hnat

theorem nodup_counterBlocks (icb : Block) {n : Nat} (hn : n ≤ 2 ^ 32) : (counterBlocks icb n).Nodup := by
  rw [counterBlocks_eq_iterate, ← List.range_map_iterate]
  refine List.Nodup.map_on (fun i hi j hj h => ?_) List.nodup_range
  exact iterate_inc32_inj ((List.mem_range.1 hi).trans_le hn) ((List.mem_range.1 hj).trans_le hn) h

/-- J0 and the data blocks after it are one run of counter blocks. -/
theorem nodup_j0_cons_gctrCalls (j0 : Block) {x : List Byte} (hx : x.length < 2 ^ 32) :
    (j0 :: gctrCalls (inc32 j0) x).Nodup := by
  have hcount : blockCount x + 1 ≤ 2 ^ 32 := by
    unfold blockCount
    omega
  exact nodup_counterBlocks j0 hcount

/-! Provider calls, 50_block_cipher_port.md R175 -/

theorem length_gctrCalls (icb : Block) (x : List Byte) : (gctrCalls icb x).length = (x.length + 15) / 16 :=
  length_counterBlocks icb _

theorem length_sealCalls (e : Block → Block) (iv x : List Byte) :
    (sealCalls e iv x).length = 2 + (x.length + 15) / 16 := by
  rw [sealCalls, List.length_append, List.length_cons, length_gctrCalls, List.length_singleton]
  omega

theorem length_callsAfterChecks {α : Type} {p : Params} {i : Instr} {s : State} {x : α} {ops : Except Fault α}
    (h : firstFailure (checksOf p i s) = none) (hx : ops = .ok x) (key : α → List Byte) (blocks : α → List Block) :
    (callsAfterChecks p i ops key blocks s).length = (blocks x).length := by
  rw [callsAfterChecks_ok h hx, List.length_map]

section Verification
variable {e : Block → Block} {iv aad c tag : List Byte} {t : Nat}

theorem length_openCalls_of_match (h : tagEq (expectedTag e iv aad c t) tag = true) :
    (openCalls e iv aad c tag t).length = 2 + (c.length + 15) / 16 := by
  rw [openCalls, if_pos h, List.length_append, length_gctrCalls]
  rfl

theorem length_openCalls_of_mismatch (h : ¬ tagEq (expectedTag e iv aad c t) tag = true) :
    (openCalls e iv aad c tag t).length = 2 := by
  rw [openCalls, if_neg h]
  rfl

theorem verifyAndDecrypt_of_match (s : State) (h : tagEq (expectedTag e iv aad c t) tag = true) :
    verifyAndDecrypt s e iv aad c tag t = (s.putDout (cryptData e iv c)).completeOk := if_pos h

theorem verifyAndDecrypt_of_mismatch (s : State) (h : ¬ tagEq (expectedTag e iv aad c t) tag = true) :
    verifyAndDecrypt s e iv aad c tag t = s.raise .authenticationFailure true := if_neg h

theorem tagEq_expectedTag_iff (ht : t ∈ [96, 104, 112, 120, 128]) (hl : tag.length = t / 8) :
    tagEq (expectedTag e iv aad c t) tag = true ↔ tag = expectedTag e iv aad c t := by
  have hlen : (expectedTag e iv aad c t).length = tag.length :=
    (length_computeTag (tagLen_le t ht) _ _ _ _ _).trans hl.symm
  exact (tagEq_iff hlen).trans eq_comm

end Verification

/-! Results in DOUT and TAG -/

/-- A result of n bytes in DOUT and a completion OK. -/
theorem putDout_completes (s : State) {r : List Byte} {n : Nat} (hr : r.length = n) (hn : n < 2 ^ 32) :
    HoldsResult (s.putDout r).completeOk r ∧ (s.putDout r).completeOk.doutlen.toNat = n ∧
      Completed s (s.putDout r).completeOk 0#4 ∧ Frame s (s.putDout r).completeOk [] [1, 6] (doutBelow n) := by
  subst hr
  have hres := holdsResult_putDout s r hn
  exact ⟨hres, hres.1, completed_completeOk rfl, frame_putDout_completeOk s r⟩

theorem frame_putTag (s : State) {tag : List Byte} (hl : tag.length ≤ 16) : Frame s (s.putTag tag) [] [] allOfTag :=
  ⟨fun _ _ => rfl, keepsCsrs_of (.inr rfl) rfl rfl rfl rfl (.inr rfl), fun _ _ h => State.byte_putTag_of_not hl h, rfl,
    rfl, rfl⟩

theorem HoldsResult.putTag {s : State} {r : List Byte} (h : HoldsResult s r) (tag : List Byte) :
    HoldsResult (s.putTag tag) r :=
  ⟨h.1, fun j hj => (State.byte_dout_putTag s tag _).trans (h.2 j hj)⟩

/-! The commands that open, R152 and R155: only a tag that matches decrypts (R157) -/

section Opening
variable {i : Instr} {s : State} {e : Block → Block} {iv aad c tag : List Byte} {t : Nat}
  (hexec : exec i s = .next (verifyAndDecrypt s e iv aad c tag t))
  (hcalls : (portCalls Config.params i s).length = (openCalls e iv aad c tag t).length)
include hexec hcalls

theorem exec_opens (hc : c.length < 2 ^ 32) (h : tagEq (expectedTag e iv aad c t) tag = true) :
    ∃ u, exec i s = .next u ∧ HoldsResult u (cryptData e iv c) ∧ u.doutlen.toNat = c.length ∧ Completed s u 0#4 ∧
      Frame s u [] [1, 6] (doutBelow c.length) ∧
      (portCalls Config.params i s).length = 2 + (c.length + 15) / 16 := by
  obtain ⟨hres, hlen, hok, hframe⟩ := putDout_completes s (length_cryptData e iv c) hc
  rw [verifyAndDecrypt_of_match s h] at hexec
  exact ⟨_, hexec, hres, hlen, hok, hframe, hcalls.trans (length_openCalls_of_match h)⟩

theorem exec_rejects (h : ¬ tagEq (expectedTag e iv aad c t) tag = true) :
    ∃ u, exec i s = .next u ∧ Raised s u 3#4 true ∧ (portCalls Config.params i s).length = 2 := by
  rw [verifyAndDecrypt_of_mismatch s h] at hexec
  exact ⟨_, hexec, raised_raise s .authenticationFailure true, hcalls.trans (length_openCalls_of_mismatch h)⟩

end Opening

/-! The worked examples: vector S2 of 95_test_vectors.md -/

theorem deriveJ0_zeros_twelve (h : Block) : deriveJ0 h (zeros 12) = 1#128 := by
  rw [deriveJ0_of_length_eq rfl]
  decide

section WorkedExample
variable {e : Block → Block} (he : VectorPairs e)
include he

theorem gctr_workedExample_zeros :
    gctr e (inc32 1#128) (zeros 16) = bytesOfBlock 0x0388dace60b6a392f328c2b971b2fe78#128 := by
  obtain ⟨-, -, h2⟩ := he
  have hzeros : zeros 16 = bytesOfBlock 0#128 := by decide
  have hnext : inc32 1#128 = 2#128 := by decide
  rw [hzeros, hnext, gctr_bytesOfBlock, h2, BitVec.zero_xor]

theorem gctr_workedExample_ciphertext :
    gctr e (inc32 1#128) (bytesOfBlock 0x0388dace60b6a392f328c2b971b2fe78#128) = zeros 16 := by
  obtain ⟨-, -, h2⟩ := he
  have hnext : inc32 1#128 = 2#128 := by decide
  rw [hnext, gctr_bytesOfBlock, h2, BitVec.xor_self]
  decide

theorem tagEq_workedExample_iff (b : Block) :
    tagEq (computeTag e (e 0#128) 1#128 [] (bytesOfBlock 0x0388dace60b6a392f328c2b971b2fe78#128) 128) (bytesOfBlock b) =
      true ↔ b = 0xab6e47d42cec13bdf53a67b21257bddf#128 := by
  rw [computeTag_workedExample he, tagEq_iff (by rw [length_bytesOfBlock, length_bytesOfBlock])]
  refine ⟨fun h => ?_, fun h => h ▸ rfl⟩
  rw [← blockOfBytes_bytesOfBlock b, ← h, blockOfBytes_bytesOfBlock]

end WorkedExample

/-! The commands that seal, R151 and R154 -/

section Ready
variable {s : State} {t : Nat} {key iv aad din : List Byte}

theorem AeadReady.length_portCalls_encrypt (h : AeadReady s t key iv aad din) :
    (portCalls Config.params (.encrypt t) s).length = 2 + (din.length + 15) / 16 :=
  (length_callsAfterChecks (h.validates (.inl rfl)) h.operands _ _).trans (length_sealCalls _ _ _)

theorem AeadReady.length_portCalls_encryptappend (h : AeadReady s t key iv aad din) :
    (portCalls Config.params (.encryptappend t) s).length = 2 + (din.length + 15) / 16 :=
  (length_callsAfterChecks (h.validates (.inr (.inr (.inl rfl)))) h.operands _ _).trans (length_sealCalls _ _ _)

theorem AeadReady.length_portCalls_decrypt (h : AeadReady s t key iv aad din) {tag : List Byte}
    (hl : tag.length = t / 8) (ht : Holds s .tag 0 tag) :
    (portCalls Config.params (.decrypt t) s).length =
      (openCalls (Config.blockCipher key) iv aad din tag t).length := by
  have hops := (decryptOperands_eq_ok t s ({ key := key, iv := iv, aad := aad, din := din }, tag)).2
    ⟨h.operands, (State.bytesAt_eq_ok _ _ _ _ _).2 ⟨hl, ht⟩⟩
  exact length_callsAfterChecks (h.validates (.inr (.inl rfl))) hops _ _

/-! DIN as C ‖ Tag, R155 -/

variable {c tag : List Byte}

theorem length_append_sub_tag (hl : tag.length = t / 8) : (c ++ tag).length - t / 8 = c.length := by
  rw [List.length_append, hl, Nat.add_sub_cancel]

theorem tag_le_length_append (hl : tag.length = t / 8) : t / 8 ≤ (c ++ tag).length :=
  hl ▸ (List.suffix_append c tag).length_le

theorem AeadReady.exec_decryptappended_append (h : AeadReady s t key iv aad (c ++ tag)) (hl : tag.length = t / 8) :
    exec (.decryptappended t) s = .next (verifyAndDecrypt s (Config.blockCipher key) iv aad c tag t) := by
  rw [h.exec_decryptappended (tag_le_length_append hl), length_append_sub_tag hl, List.take_left, List.drop_left]

theorem AeadReady.length_portCalls_decryptappended (h : AeadReady s t key iv aad (c ++ tag)) (hl : tag.length = t / 8) :
    (portCalls Config.params (.decryptappended t) s).length =
      (openCalls (Config.blockCipher key) iv aad c tag t).length := by
  have hcalls : (portCalls Config.params (.decryptappended t) s).length = (openCalls (Config.blockCipher key) iv aad
      ((c ++ tag).take ((c ++ tag).length - t / 8)) ((c ++ tag).drop ((c ++ tag).length - t / 8)) t).length :=
    length_callsAfterChecks (h.validates (.inr (.inr (.inr ⟨rfl, tag_le_length_append hl⟩)))) h.operands _ _
  rwa [length_append_sub_tag hl, List.take_left, List.drop_left] at hcalls

end Ready

theorem validationCode_of_shortCombined {s : State} {t : Nat} (hkey : s.keylen.toNat ∈ [16, 24, 32])
    (ht : t ∈ [96, 104, 112, 120, 128]) (hiv : s.ivlen.toNat ≤ Config.capIv) (haad : s.aadlen.toNat ≤ Config.capAad)
    (hshort : s.dinlen.toNat < t / 8) : validationCode (.decryptappended t) s = some 2#4 := by
  have hdin : s.dinlen.toNat ≤ Config.capDin := by
    have := tagLen_le t ht
    have := Config.sixteen_le_capDin
    omega
  have hfits : ¬ badOperand (.decryptappended t) s := by
    rintro (h | h | h | h)
    · exact Nat.not_le.2 h.2 hiv
    · exact Nat.not_le.2 h.2 haad
    · exact Nat.not_le.2 h.2 hdin
    · cases h.1
  rw [validationCode, if_neg fun h => h.2 hkey, if_neg fun h => h.2 ht, if_neg hfits, if_pos ⟨rfl, hshort⟩]

/-- Settles O33: ENCRYPT has ciphertext and tag as its one outcome where the operands are ready, and its first failing check's
error where one fails. -/
theorem encryptSeals : Obligations.EncryptSeals := by
  refine ⟨fun t ht => encode_eq_or (i := .encrypt t) ht, rfl, ?worked, ?completes, fun t => raisesItsErrors (.encrypt t)⟩
  case worked =>
    rintro e he _ _ rfl rfl
    rw [deriveJ0_zeros_twelve, gctr_workedExample_zeros he]
    exact ⟨rfl, computeTag_workedExample he⟩
  case completes =>
    rintro s t key iv aad pt h _ _ _ _ rfl rfl rfl rfl
    have hlt := h.dinHeld.length_lt
    obtain ⟨hres, hlen, hok, hframe⟩ := putDout_completes s (length_cryptData (Config.blockCipher key) iv pt) hlt
    have htag := holdsTag_putTag (s.putDout (cryptData (Config.blockCipher key) iv pt))
      (expectedTag (Config.blockCipher key) iv aad (cryptData (Config.blockCipher key) iv pt) t)
    refine ⟨_, h.exec_encrypt, hres.putTag _, htag, BitVec.eq_of_toNat_eq (hlen.trans h.dinHeld.1), hok, ?frame,
      h.length_portCalls_encrypt, nodup_j0_cons_gctrCalls _ hlt, ?empty⟩
    case frame =>
      exact (hframe.mono (fun _ => id) (fun _ => id) fun _ _ => .inl).trans
        ((frame_putTag _ (length_expectedTag_le _ _ _ _ _)).mono (fun _ => id) (fun _ => id) fun _ _ => .inr)
    case empty =>
      rintro rfl rfl
      exact computeTag_nil_nil _ _ _ t ▸ htag

/-- Settles O34: DECRYPT has the plaintext or AuthenticationFailure as its outcome, by the comparison of the tags, where the
operands are ready, and its first failing check's error where one fails. -/
theorem decryptVerifiesThenOpens : Obligations.DecryptVerifiesThenOpens := by
  refine ⟨fun t ht => encode_eq_or (i := .decrypt t) ht, ?worked, ?ready, fun t => raisesItsErrors (.decrypt t)⟩
  case worked =>
    rintro e he _ _ rfl rfl
    rw [deriveJ0_zeros_twelve]
    refine ⟨gctr_workedExample_ciphertext he, (tagEq_workedExample_iff he _).2 rfl, ?_⟩
    exact Bool.eq_false_iff.2 fun h => absurd ((tagEq_workedExample_iff he _).1 h) (by decide)
  case ready =>
    rintro s t key iv aad c tag h hl ht _ _ _ rfl rfl rfl
    have hexec := h.exec_decrypt hl ht
    have hcalls := h.length_portCalls_decrypt hl ht
    have hiff := tagEq_expectedTag_iff (e := Config.blockCipher key) (iv := iv) (aad := aad) (c := c) h.tagLegal hl
    refine ⟨fun hmatch => ?_, fun hne => exec_rejects hexec hcalls (mt hiff.1 hne)⟩
    obtain ⟨u, hu, hres, hlen, hok, hframe, hcount⟩ :=
      exec_opens hexec hcalls h.dinHeld.length_lt (hiff.2 hmatch)
    exact ⟨u, hu, hres, BitVec.eq_of_toNat_eq (hlen.trans h.dinHeld.1), hok, hframe, hcount⟩

/-- Settles O35: ENCRYPTAPPEND has C ‖ Tag in DOUT as its one outcome where the operands are ready, and its first failing check's
error where one fails. -/
theorem encryptappendSealsToDout : Obligations.EncryptappendSealsToDout := by
  refine ⟨fun t ht => encode_eq_or (i := .encryptappend t) ht, rfl, ?worked, ?completes,
    fun t => raisesItsErrors (.encryptappend t)⟩
  case worked =>
    rintro e he _ _ rfl rfl
    rw [deriveJ0_zeros_twelve, gctr_workedExample_zeros he, computeTag_workedExample he]
  case completes =>
    rintro s t key iv aad pt h _ _ _ _ rfl rfl rfl rfl
    have htag : t / 8 ≤ 16 := Nat.div_le_of_le_mul (tagLen_le t h.tagLegal)
    have hlength (e : Block → Block) :
        (cryptData e iv pt ++ expectedTag e iv aad (cryptData e iv pt) t).length = pt.length + t / 8 := by
      rw [List.length_append, length_cryptData, length_expectedTag, Nat.min_eq_left htag]
    have hlt : pt.length + t / 8 < 2 ^ 32 :=
      (Nat.add_le_add h.dinFits htag).trans_lt capDin_add_lt
    obtain ⟨hres, hlen, hok, hframe⟩ := putDout_completes s (hlength (Config.blockCipher key)) hlt
    have hdin : pt.length = s.dinlen.toNat := h.dinHeld.1
    exact ⟨_, h.exec_encryptappend, hres, hdin ▸ hlen, hok, hframe, h.length_portCalls_encryptappend⟩

/-- Settles O36: DECRYPTAPPENDED has the plaintext or AuthenticationFailure as its outcome, by the comparison of the tags, where
DIN is ready as C ‖ Tag, and its first failing check's error where one fails. -/
theorem decryptappendedSplitsAndOpens : Obligations.DecryptappendedSplitsAndOpens := by
  refine ⟨fun t ht => encode_eq_or (i := .decryptappended t) ht, rfl, ?worked, ?ready, ?short,
    fun t => raisesItsErrors (.decryptappended t)⟩
  case worked =>
    rintro e he _ _ rfl rfl
    rw [deriveJ0_zeros_twelve, List.take_left' (length_bytesOfBlock _), List.drop_left' (length_bytesOfBlock _)]
    exact ⟨gctr_workedExample_ciphertext he, (tagEq_workedExample_iff he _).2 rfl⟩
  case ready =>
    rintro s t key iv aad c tag h hl _ _ _ rfl rfl rfl
    have hexec := h.exec_decryptappended_append hl
    have hcalls := h.length_portCalls_decryptappended hl
    have hiff := tagEq_expectedTag_iff (e := Config.blockCipher key) (iv := iv) (aad := aad) (c := c) h.tagLegal hl
    refine ⟨fun hmatch => ?_, fun hne => exec_rejects hexec hcalls (mt hiff.1 hne)⟩
    have hdin : (c ++ tag).length = s.dinlen.toNat := h.dinHeld.1
    have hclen : c.length = s.dinlen.toNat - t / 8 := hdin ▸ (length_append_sub_tag hl).symm
    obtain ⟨u, hu, hres, hlen, hrest⟩ :=
      exec_opens hexec hcalls (hclen ▸ Nat.sub_lt_of_lt s.dinlen.isLt) (hiff.2 hmatch)
    exact ⟨u, hu, hres, hlen.trans hclen, hrest⟩
  case short =>
    intro s t hkey ht hiv haad hshort
    obtain ⟨u, hu, hraised, -⟩ :=
      raisesItsErrors (.decryptappended t) s _ (validationCode_of_shortCombined hkey ht hiv haad hshort)
    exact ⟨u, hu, hraised⟩

end Sys2Proof.Machine

/-! The block cipher port, 50_block_cipher_port.md: the keys the provider is called with. -/

namespace Sys2Proof.Machine

/-- Where reading the operands gives a key that KEY holds, every call carries such a key, and only passed validations lead to a
call. -/
theorem of_mem_callsAfterChecks {α : Type} {i : Instr} {s : State} {ops : Except Fault α} {key : α → List Byte}
    {blocks : α → List Block} {c : PortCall} (hkey : ∀ x, ops = .ok x → HoldsOperand s .key (key x))
    (h : c ∈ callsAfterChecks Config.params i ops key blocks s) :
    validationCode i s = none ∧ HoldsOperand s .key c.key := by
  cases hv : firstFailure (checksOf Config.params i s) with
  | some k =>
    rw [callsAfterChecks_raise hv] at h
    cases h
  | none =>
    cases ops with
    | error f =>
      simp only [callsAfterChecks, hv] at h
      cases h
    | ok x =>
      rw [callsAfterChecks_ok hv rfl] at h
      obtain ⟨b, -, rfl⟩ := List.mem_map.1 h
      exact ⟨firstFailure_eq_none.1 hv, hkey x rfl⟩

/-- R174: a call belongs to a command that takes a key and passes its validations, and its key is the operand in KEY. -/
theorem of_mem_portCalls {i : Instr} {s : State} {c : PortCall} (h : c ∈ portCalls Config.params i s) :
    usesKey i = true ∧ validationCode i s = none ∧ HoldsOperand s .key c.key := by
  have haead (o : AeadOperands) (ho : aeadOperands s = .ok o) : HoldsOperand s .key o.key :=
    ((aeadOperands_eq_ok s o).1 ho).1
  cases i with
  | gfmul | ghash | derivej0 | inc32 => cases h
  | gctr => exact ⟨rfl, of_mem_callsAfterChecks (fun o ho => ((gctrOperands_eq_ok s o).1 ho).1) h⟩
  | derivecommon => exact ⟨rfl, of_mem_callsAfterChecks (fun o ho => ((deriveOperands_eq_ok s o).1 ho).1) h⟩
  | computetag _ => exact ⟨rfl, of_mem_callsAfterChecks (fun o ho => ((tagOperands_eq_ok s o).1 ho).1) h⟩
  | encrypt _ | encryptappend _ | decryptappended _ => exact ⟨rfl, of_mem_callsAfterChecks haead h⟩
  | decrypt t =>
    exact ⟨rfl, of_mem_callsAfterChecks (fun o ho => haead o.1 ((decryptOperands_eq_ok t s o).1 ho).1) h⟩

/-- R6: the key in KEY has a legal length once a command that takes a key passes its validations. -/
theorem HoldsOperand.keyLength_mem {i : Instr} {s : State} {key : List Byte} (hk : HoldsOperand s .key key)
    (hi : usesKey i = true) (hv : validationCode i s = none) : key.length ∈ [16, 24, 32] := by
  obtain ⟨hgood, -⟩ := validationCode_eq_none.1 hv
  have hlen : key.length = s.keylen.toNat := hk.1
  exact hlen ▸ by_contra fun hbad => hgood ⟨hi, hbad⟩

/-- Settles O52: a call's key is the operand in KEY, whose length the command checked; a call from a command that fails a check
or takes no key would contradict that. -/
theorem providerKeysAreLegal : Obligations.ProviderKeysAreLegal := by
  refine fun i s => ⟨fun c hc => ?keys, fun hno => List.eq_nil_iff_forall_not_mem.2 fun c hc => ?noCall⟩
  case keys =>
    obtain ⟨hi, hv, hk⟩ := of_mem_portCalls hc
    exact ⟨hk.keyLength_mem hi hv, hk⟩
  case noCall =>
    obtain ⟨hi, hv, -⟩ := of_mem_portCalls hc
    exact hno.elim (· hv) fun hnone => Bool.false_ne_true (hnone.symm.trans hi)

end Sys2Proof.Machine

/-! The errors of a command word, 60_exceptions.md R183 and R184: which one it reports, and what it writes. -/

namespace Sys2Proof.Machine

section Word
variable {s : State} {w : Word} {rest : List Input} (hp : s.pending = .move (.csrWrite 0 w) :: rest)
include hp

theorem step_legalWord {i : Instr} (hw : decode w = .ok i) : step s = exec i { s with pending := rest } :=
  (step_move hp).trans (issue_ok hw _)

theorem step_illegalWord (hw : ∀ i, decode w ≠ .ok i) :
    step s = .next (State.raise { s with pending := rest } .illegalCommand false) :=
  (step_move hp).trans (issue_illegal hw _)

end Word

theorem verifyAndDecrypt_of_code_ne_zero {s : State} {e : Block → Block} {iv a c tag : List Byte} {t : Nat}
    (hc : (verifyAndDecrypt s e iv a c tag t).code ≠ 0#4) :
    verifyAndDecrypt s e iv a c tag t = s.raise .authenticationFailure true :=
  (verifyAndDecrypt_cases s e iv a c tag t).resolve_left fun h => hc (h ▸ State.code_completeOk _)

/-- A command has two sources of errors, its validations and the comparison of tags, and both end in `raise`. -/
theorem Effect.eq_raise_of_code_ne_zero {s t : State} {i : Instr} (h : Effect s i t) (hc : t.code ≠ 0#4) :
    ∃ k, t = s.raise k (hasDout i) ∧ (firstFailure (checksOf Config.params i s) = some k ∨
      k = .authenticationFailure ∧ (i = .decrypt i.tlen ∨ i = .decryptappended i.tlen)) := by
  cases h with
  | raised hk => exact ⟨_, rfl, .inl hk⟩
  | decrypt _ _ _ _ => exact ⟨_, verifyAndDecrypt_of_code_ne_zero hc, .inr ⟨rfl, .inl rfl⟩⟩
  | decryptappended _ _ => exact ⟨_, verifyAndDecrypt_of_code_ne_zero hc, .inr ⟨rfl, .inr rfl⟩⟩
  | gfmul | ghash _ _ | derivej0 _ _ | inc32 | gctr _ _ _ | derivecommon _ _ _ | computetag _ _ _ _ | encrypt _ _
  | encryptappend _ _ => exact absurd (State.code_completeOk _) hc

/-- Settles O42: the validations fix the code, and where all pass, AuthenticationFailure is the one error left. -/
theorem errorsFollowTheirPriority : Obligations.ErrorsFollowTheirPriority := by
  intro s w rest hp
  refine ⟨fun hw => ?illegal, fun i c hw hc => ?failed, fun i t hw hv hs => ?passed⟩
  case illegal => exact ⟨_, step_illegalWord hp hw, State.code_raise _ _ _⟩
  case failed =>
    obtain ⟨t, ht, ⟨⟨hcode, -⟩, -⟩, -⟩ := raisesItsErrors i { s with pending := rest } c hc
    exact ⟨t, (step_legalWord hp hw).trans ht, hcode⟩
  case passed =>
    refine or_iff_not_imp_left.2 fun hne => ?_
    have heff := exec_next ((step_legalWord hp hw).symm.trans hs)
    obtain ⟨k, rfl, hk | ⟨rfl, hi⟩⟩ := heff.eq_raise_of_code_ne_zero hne
    · cases (firstFailure_eq_none.2 hv).symm.trans hk
    · exact ⟨State.code_raise _ _ _, hi⟩

/-- Settles O43: every error ends in `raise`, and one from a validation comes before the provider is called. -/
theorem errorsWriteStatusAndDoutlenOnly : Obligations.ErrorsWriteStatusAndDoutlenOnly := by
  intro s t w rest hp hs hc
  refine ⟨fun i hw => ?legal, fun hw => ?illegal⟩
  case legal =>
    have heff := exec_next ((step_legalWord hp hw).symm.trans hs)
    obtain ⟨k, rfl, hk⟩ := heff.eq_raise_of_code_ne_zero hc
    rw [State.code_raise]
    refine ⟨raised_raise _ k (hasDout i), fun hne => ?_⟩
    rcases hk with hk | ⟨rfl, -⟩
    · exact portCalls_raise hk
    · exact absurd rfl hne
  case illegal =>
    cases (step_illegalWord hp hw).symm.trans hs
    rw [State.code_raise]
    exact raised_raise _ .illegalCommand false

end Sys2Proof.Machine

/-! The round trip of the encoding and the step that runs a command word, 30_encoding.md R80 to R85. -/

namespace Sys2Proof

/-- Settles O3, by the three fields of an encoded command. -/
theorem decodeOfEncodeGivesTheCommand : Obligations.DecodeOfEncodeGivesTheCommand := fun _ => decode_encode

/-- Settles O4: a legal word is its three fields put together again. -/
theorem encodeOfDecodeGivesTheWord : Obligations.EncodeOfDecodeGivesTheWord :=
  fun _ _ hw => ⟨wellFormed_of_decode hw, encode_of_decode hw⟩

/-- Settles O1: the legal words by evaluation, each illegal one by its cause among those of R85. -/
theorem wordsOfTheSpecDecode : Obligations.WordsOfTheSpecDecode := by
  refine ⟨rfl, rfl, rfl, rfl, rfl, rfl, rfl, rfl, rfl, rfl, rfl, rfl, fun w hw => decode_ne_ok ?_⟩
  simp only [List.mem_cons, List.not_mem_nil, or_false] at hw
  obtain rfl | rfl | rfl | rfl | rfl | rfl | rfl := hw <;> decide

end Sys2Proof

namespace Sys2Proof.Machine

/-- A whole 32-bit word goes to CMD as it stands (log 15). -/
theorem withFetchWord_pending (s : State) (w : Word) :
    (s.withFetchWord 32 w.toNat).pending = .move (.csrWrite 0 w) :: s.pending := by
  rw [State.withFetchWord, Nat.mod_eq_of_lt w.isLt, BitVec.ofNat_toNat, BitVec.setWidth_eq]

/-- Settles O7: the write to CMD is taken off the list and its word is the command's. -/
theorem stepRunsTheDecodedCommand : Obligations.StepRunsTheDecodedCommand :=
  ⟨fun _ _ _ _ hp hw => step_legalWord hp hw,
    fun s i hi => step_legalWord (withFetchWord_pending s (encode i)) (decode_encode hi)⟩

end Sys2Proof.Machine

/-! The machine's invariant: the state after reset meets it, and every operation that a step is made of keeps it. -/

namespace Sys2Proof.Machine

/-! Reset, 10_state.md R34 -/

@[simp] theorem csr_afterReset (n k : Nat) : (State.afterReset n).csr k = 0#32 := by
  unfold State.csr
  split <;> rfl

@[simp] theorem byte_afterReset (n : Nat) (b : Buf) (a : Nat) : (State.afterReset n).byte b a = none := by
  cases b <;> rfl

theorem csr_applyReset (s : State) (k : Nat) : (applyReset s).csr k = 0#32 := csr_afterReset (s.resets + 1) k

theorem byte_applyReset (s : State) (b : Buf) (a : Nat) : (applyReset s).byte b a = none :=
  byte_afterReset (s.resets + 1) b a

theorem step_reset {s : State} {rest : List Input} (h : s.pending = .reset :: rest) :
    step s = .next (applyReset { s with pending := rest }) := step_cons h

/-- Settles O9: a reset draws new free values for the block registers and clears the rest, whichever reset it is. -/
theorem resetHoldsTheTable : Obligations.ResetHoldsTheTable :=
  ⟨csr_afterReset 0, byte_afterReset 0, fun _ _ hp =>
    ⟨_, step_reset hp, csr_applyReset _, byte_applyReset _, rfl, rfl⟩⟩

/-- Settles O10, by the bounds of 00_scope.md R7 that the constants are cut to. -/
theorem capacitiesMeetTheirConstraints : Obligations.CapacitiesMeetTheirConstraints :=
  ⟨rfl, rfl, rfl, Config.twelve_le_capIv, Config.capIv_lt, Config.capAad_lt, Config.sixteen_le_capDin, Config.capDin_lt⟩

theorem inv_afterReset (n : Nat) : (State.afterReset n).Inv where
  wf b := by cases b <;> exact List.Pairwise.nil
  inside _ _ _ := byte_afterReset n _ _
  reserved := BitVec.zero_and
  code := List.mem_cons_self
  idle _ := rfl
  result _ ha := absurd ha (Nat.not_lt_zero _)

/-- Settles O48: no buffer byte is listed and STATUS is 0. -/
theorem resetMeetsTheInvariant : Obligations.ResetMeetsTheInvariant := inv_afterReset 0

/-! Operations that leave the buffers, STATUS and DOUTLEN as they are -/

/-- The invariant speaks of STATUS, DOUTLEN and the buffers only. -/
theorem State.Inv.of_eq {s t : State} (h : s.Inv) (hbuf : t.buf = s.buf) (hstatus : t.status = s.status)
    (hdoutlen : t.doutlen = s.doutlen) : t.Inv := by
  obtain ⟨hwf, hinside, hreserved, hcode, hidle, hresult⟩ := h
  unfold State.byte at hinside hresult
  unfold State.done at hidle
  unfold State.code at hcode hidle
  rw [← hbuf, ← hstatus, ← hdoutlen] at *
  exact ⟨hwf, hinside, hreserved, hcode, hidle, hresult⟩

theorem State.Inv.setCsr {s : State} (h : s.Inv) (n : Nat) (v : Word) : (s.setCsr n v).Inv := by
  unfold State.setCsr
  split <;> exact h.of_eq rfl rfl rfl

/-! Writes to buffers -/

theorem wf_setBytes {s : State} (h : ∀ b, Memory.wf (s.buf.get b)) (b : Buf) (a : Nat) (v : List Byte) (b' : Buf) :
    Memory.wf ((s.setBytes b a v).buf.get b') := by
  rw [State.setBytes_buf, Buffers.get_set]
  split
  · exact Memory.wf_writeBytes (h b) a v
  · exact h b'

theorem setByte_eq_setBytes (s : State) (b : Buf) (a : Nat) (v : Byte) : s.setByte b a v = s.setBytes b a [v] := rfl

/-- A string that ends inside its buffer leaves every buffer inside its capacity. -/
theorem inside_setBytes {s : State} (h : s.Inv) {b : Buf} {a : Nat} {v : List Byte}
    (hfit : a + v.length ≤ capacity Config.params b) (b' : Buf) (a' : Nat) (ha : capacity Config.params b' ≤ a') :
    (s.setBytes b a v).byte b' a' = none := by
  rw [State.byte_setBytes, dif_neg, h.inside b' a' ha]
  rintro ⟨rfl, -, hlt⟩
  omega

theorem State.Inv.setBytes {s : State} (h : s.Inv) {b : Buf} {a : Nat} {v : List Byte}
    (hfit : a + v.length ≤ capacity Config.params b) (hb : b ≠ .dout) : (s.setBytes b a v).Inv where
  wf := wf_setBytes h.wf b a v
  inside := inside_setBytes h hfit
  reserved := h.reserved
  code := h.code
  idle := h.idle
  result a' ha := by
    rw [State.byte_setBytes, dif_neg fun hd => hb hd.1.symm]
    exact h.result a' ha

theorem State.Inv.putDout {s : State} (h : s.Inv) {r : List Byte} (hfit : r.length ≤ Config.capDin + 16) :
    (s.putDout r).Inv where
  wf := wf_setBytes h.wf .dout 0 r
  inside := inside_setBytes h (b := .dout) (a := 0) (by rwa [Nat.zero_add])
  reserved := h.reserved
  code := h.code
  idle := h.idle
  result := fun a => ((writesDout_putDout s (hfit.trans_lt capDin_add_lt)).2 a).1

theorem State.Inv.putTag {s : State} (h : s.Inv) {tag : List Byte} (hfit : tag.length ≤ 16) : (s.putTag tag).Inv := by
  have hlen : 0 + (tag ++ zeros (16 - tag.length)).length ≤ 16 := by
    rw [List.length_append, length_zeros]
    omega
  exact h.setBytes (b := .tag) hlen nofun

/-! Completion -/

theorem State.Inv.completeOk {s : State} (h : s.Inv) : s.completeOk.Inv where
  wf := h.wf
  inside := h.inside
  reserved := (statusReserved_statusAfter _ _).trans h.reserved
  code := by rw [State.code_completeOk]; decide
  idle _ := State.code_completeOk s
  result := h.result

theorem State.Inv.raise {s : State} (h : s.Inv) {k : ErrorKind} (hk : k ≠ .malformedInput) (d : Bool) :
    (s.raise k d).Inv where
  wf := h.wf
  inside := h.inside
  reserved := (statusReserved_statusAfter _ _).trans h.reserved
  code := by
    rw [State.code_raise]
    cases k with
    | malformedInput => exact absurd rfl hk
    | invalidKeyLength | invalidTagLength | authenticationFailure | illegalCommand | operandLength => decide
  idle hd := by
    rw [State.done_raise] at hd
    cases hd
  result a ha := by
    cases d with
    | true => exact absurd ha (Nat.not_lt_zero a)
    | false => exact h.result a ha

/-! Commands -/

/-- 60_exceptions.md R181: the validations have no cause for MalformedInput. -/
theorem firstFailure_ne_malformedInput {i : Instr} {s : State} {k : ErrorKind}
    (h : firstFailure (checksOf Config.params i s) = some k) : k ≠ .malformedInput := by
  rintro rfl
  have hcode : validationCode i s = some 4#4 := by rw [validationCode_eq, h]; rfl
  have hne : validationCode i s ≠ some 4#4 := by
    unfold validationCode
    repeat' split
    all_goals decide
  exact hne hcode

/-- A DIN operand of a command whose validations pass is inside the capacity. -/
theorem HoldsOperand.length_le_capDin {i : Instr} {s : State} {x : List Byte} (hx : HoldsOperand s .din x)
    (hi : usesDin i = true) (hv : validationCode i s = none) : x.length ≤ Config.capDin := by
  obtain ⟨-, -, hfit, -⟩ := validationCode_eq_none.1 hv
  have hlen : x.length = s.dinlen.toNat := hx.1
  exact hlen ▸ Nat.not_lt.1 fun hlt => hfit (.inr (.inr (.inl ⟨hi, hlt⟩)))

theorem State.Inv.verifyAndDecrypt {s : State} (h : s.Inv) (e : Block → Block) (iv a : List Byte) {c : List Byte}
    (tag : List Byte) (t : Nat) (hc : c.length ≤ Config.capDin) : (verifyAndDecrypt s e iv a c tag t).Inv := by
  rcases verifyAndDecrypt_cases s e iv a c tag t with hv | hv <;> rw [hv]
  · exact (h.putDout (by rw [length_cryptData]; omega)).completeOk
  · exact h.raise (k := .authenticationFailure) nofun true

theorem Effect.inv {s t : State} {i : Instr} (he : Effect s i t) (h : s.Inv) : t.Inv := by
  have hdin {i : Instr} {o : AeadOperands} (ho : aeadOperands s = .ok o) (hi : usesDin i = true)
      (hv : validationCode i s = none) : o.din.length ≤ Config.capDin :=
    ((aeadOperands_eq_ok s o).1 ho).2.2.2.length_le_capDin hi hv
  cases he with
  | raised hk => exact h.raise (firstFailure_ne_malformedInput hk) _
  | gfmul | ghash _ _ | derivej0 _ _ | inc32 | derivecommon _ _ _ =>
    refine State.Inv.completeOk ?_
    exact h.of_eq rfl rfl rfl
  | gctr hv _ hx =>
    have := hx.length_le_capDin rfl hv
    exact (h.putDout (by rw [length_gctr]; omega)).completeOk
  | computetag _ _ _ _ => exact (h.putTag (length_computeTag_le _ _ _ _ _ _)).completeOk
  | encrypt hv ho =>
    have hfit := (hdin ho rfl hv).trans (Nat.le_add_right Config.capDin 16)
    exact ((h.putDout (by rwa [length_cryptData])).putTag (length_expectedTag_le _ _ _ _ _)).completeOk
  | decrypt hv ho _ _ => exact h.verifyAndDecrypt _ _ _ _ _ (hdin ho rfl hv)
  | encryptappend hv ho =>
    refine (h.putDout ?_).completeOk
    rw [List.length_append, length_cryptData]
    exact Nat.add_le_add (hdin ho rfl hv) (length_expectedTag_le _ _ _ _ _)
  | decryptappended hv ho =>
    exact h.verifyAndDecrypt _ _ _ _ _ ((List.length_take_le' _ _).trans (hdin ho rfl hv))

/-! Host moves and steps -/

theorem issue_keeps_inv {w : Word} {s t : State} (h : s.Inv) (hs : issue w s = .next t) : t.Inv := by
  cases hw : decode w with
  | ok i => exact (exec_next ((issue_ok hw s).symm.trans hs)).inv h
  | error e =>
    cases (issue_illegal (fun i hi => nomatch hw.symm.trans hi) s).symm.trans hs
    exact h.raise (k := .illegalCommand) nofun false

theorem hostMove_keeps_inv {m : HostMove} {s t : State} (h : s.Inv) (hs : hostMove m s = .next t) : t.Inv := by
  cases m with
  | csrRead n => cases hs; exact h.of_eq rfl rfl rfl
  | csrWrite n v =>
    cases n with
    | zero => exact issue_keeps_inv h hs
    | succ n => cases hs; exact h.setCsr _ v
  | blkRead r => cases hs; exact h.of_eq rfl rfl rfl
  | blkWrite r v => cases hs; exact h.of_eq rfl rfl rfl
  | bufRead b a =>
    obtain ⟨-, v, -, rfl⟩ := hostBufRead_next hs
    exact h.of_eq rfl rfl rfl
  | bufWrite b a v =>
    obtain ⟨ha, ⟨-, rfl⟩ | ⟨hb, rfl⟩⟩ := hostBufWrite_next hs
    · exact h
    · rw [setByte_eq_setBytes]
      exact h.setBytes ha hb

/-- Settles O49, by the kinds of input: each operation a step is made of keeps the invariant by itself. -/
theorem stepKeepsTheInvariant : Obligations.StepKeepsTheInvariant := by
  intro s t h hs
  cases hp : s.pending with
  | nil =>
    cases (step_nil hp).symm.trans hs
    exact h
  | cons x rest =>
    have hx : applyInput x { s with pending := rest } = .next t := (step_cons hp).symm.trans hs
    cases x with
    | move m => exact hostMove_keeps_inv (s := { s with pending := rest }) (h.of_eq rfl rfl rfl) hx
    | reset =>
      cases hx
      exact (inv_afterReset (s.resets + 1)).of_eq rfl rfl rfl

end Sys2Proof.Machine

/-! The algebra of the multiplier and of GHASH, 40_gf_multiplier.md R104 and 41_ghash.md R113. -/

namespace Sys2Proof.Machine

/-! The sum over the bits of X, R104 (b) -/

theorem shiftedY_succ (y : Block) (k : Nat) : shiftedY y (k + 1) = mulShift (shiftedY y k) :=
  Function.iterate_succ_apply' mulShift k y

/-- One term of the sum: V_k where the bit of X at k is set. -/
def addTerm (x y z : Block) (k : Nat) : Block := if x.getLsbD (127 - k) then z ^^^ shiftedY y k else z

/-- After n iterations Z is the sum of the first n terms and V is V_n. -/
theorem foldl_procedureStep_eq (x y : Block) (n : Nat) :
    (List.range n).foldl (procedureStep x) (0#128, y) = ((List.range n).foldl (addTerm x y) 0#128, shiftedY y n) := by
  induction n with
  | zero => rfl
  | succ n ih =>
    rw [List.range_succ, List.foldl_append, List.foldl_append, ih, shiftedY_succ]
    rfl

theorem mul_eq_foldl_addTerm (x y : Block) : mul x y = (List.range 128).foldl (addTerm x y) 0#128 := by
  rw [mul_eq_foldl_procedureStep, foldl_procedureStep_eq]

/-! Linearity, R104 (d) -/

theorem mulIter_z_xor_left (x x' z z' v : Block) (n : Nat) :
    (mulIter (x ^^^ x') n { z := z ^^^ z', v := v }).z =
      (mulIter x n { z := z, v := v }).z ^^^ (mulIter x' n { z := z', v := v }).z := by
  induction n generalizing z z' v with
  | zero => rfl
  | succ n ih =>
    have hz : (if (x ^^^ x').getLsbD n then z ^^^ z' ^^^ v else z ^^^ z') =
        (if x.getLsbD n then z ^^^ v else z) ^^^ (if x'.getLsbD n then z' ^^^ v else z') := by
      rw [BitVec.getLsbD_xor]
      cases x.getLsbD n <;> cases x'.getLsbD n <;> simp only [Bool.xor_self, Bool.xor_false, Bool.xor_true, Bool.not_false,
        if_true, if_false, Bool.false_eq_true]
      · ac_rfl
      · ac_rfl
      · rw [show z ^^^ v ^^^ (z' ^^^ v) = z ^^^ z' ^^^ (v ^^^ v) by ac_rfl, BitVec.xor_self, BitVec.xor_zero]
    simp only [mulIter, mulStep, hz]
    exact ih _ _ _

theorem mul_xor_left (x x' y : Block) : mul (x ^^^ x') y = mul x y ^^^ mul x' y :=
  mulIter_z_xor_left x x' 0#128 0#128 y 128

theorem mul_xor_right (x y y' : Block) : mul x (y ^^^ y') = mul x y ^^^ mul x y' :=
  mulIter_z_xor x 0#128 0#128 y y' 128

/-! Commutativity and associativity, R104 (g)

`mul x` is a polynomial in the linear map `mulShift`, so it commutes with `mulShift` and with every `mul y`; and the block
80..00 is a right unit. -/

/-- A linear map that commutes with the shift step commutes with the iterations. -/
theorem map_mulIter_z {f : Block → Block} (hxor : ∀ a b, f (a ^^^ b) = f a ^^^ f b)
    (hshift : ∀ v, f (mulShift v) = mulShift (f v)) (x : Block) (n : Nat) (w : MulWork) :
    f (mulIter x n w).z = (mulIter x n { z := f w.z, v := f w.v }).z := by
  induction n generalizing w with
  | zero => rfl
  | succ n ih => simp only [mulIter, mulStep, ih, hshift, apply_ite f, hxor]

theorem mulShift_mul (x y : Block) : mulShift (mul x y) = mul x (mulShift y) := by
  rw [mul, map_mulIter_z mulShift_xor (fun _ => rfl), mulShift_zero, mul]

theorem mul_left_comm (x y z : Block) : mul x (mul y z) = mul y (mul x z) := by
  have h := map_mulIter_z (mul_xor_right x) (fun v => (mulShift_mul x v).symm) y 128 { z := 0#128, v := z }
  rw [mul_zero_right] at h
  exact h

/-- A single bit moves down by one, and R does not enter before it leaves the block. -/
theorem mulShift_twoPow_succ {k : Nat} (hk : k + 1 < 128) :
    mulShift (BitVec.twoPow 128 (k + 1)) = BitVec.twoPow 128 k := by
  have hlow : (BitVec.twoPow 128 (k + 1)).getLsbD 0 = false := by simp
  rw [mulShift, hlow, if_neg Bool.false_ne_true]
  refine BitVec.eq_of_getLsbD_eq fun i hi => ?_
  rw [BitVec.getLsbD_ushiftRight, BitVec.getLsbD_twoPow, BitVec.getLsbD_twoPow]
  simp [show k < 128 by omega, hk, Nat.add_comm 1 i]

/-- From a single bit that starts n - 1 places above the lowest one, n iterations collect the low n bits of X. -/
theorem mulIter_z_twoPow (x : Block) {n : Nat} (hn : n ≤ 128) :
    (mulIter x n { z := 0#128, v := BitVec.twoPow 128 (n - 1) }).z = (x.setWidth n).setWidth 128 := by
  induction n with
  | zero => rw [BitVec.of_length_zero (x := x.setWidth 0)]; rfl
  | succ n ih =>
    have hrest : (mulIter x n { z := 0#128, v := mulShift (BitVec.twoPow 128 n) }).z = (x.setWidth n).setWidth 128 := by
      rw [← ih (Nat.le_of_succ_le hn)]
      cases n with
      | zero => rfl
      | succ n => rw [mulShift_twoPow_succ (by omega), Nat.add_sub_cancel]
    rw [mulIter, mulStep, mulIter_z, Nat.add_sub_cancel, hrest]
    refine BitVec.eq_of_getLsbD_eq fun i hi => ?_
    have hbit : (if x.getLsbD n then 0#128 ^^^ BitVec.twoPow 128 n else 0#128).getLsbD i =
        (x.getLsbD n && decide (n = i)) := by
      cases x.getLsbD n <;> simp [BitVec.getLsbD_twoPow, show n < 128 from hn]
    simp only [BitVec.getLsbD_xor, BitVec.getLsbD_setWidth, hbit, hi, decide_true, Bool.true_and]
    obtain hlt | rfl | hgt := Nat.lt_trichotomy i n
    · simp [hlt, hlt.ne', Nat.lt_succ_of_lt hlt]
    · simp
    · simp [hgt.ne, Nat.not_lt.2 hgt.le, Nat.not_lt.2 (Nat.succ_le_of_lt hgt)]

/-- The block 80..00, the one of the field. -/
theorem msb_eq_twoPow : 0x80000000000000000000000000000000#128 = BitVec.twoPow 128 127 := by decide

@[simp] theorem mul_msb_right (x : Block) : mul x 0x80000000000000000000000000000000#128 = x := by
  rw [msb_eq_twoPow, mul, mulIter_z_twoPow x le_rfl, BitVec.setWidth_eq, BitVec.setWidth_eq]

theorem mul_comm (x y : Block) : mul x y = mul y x := by
  have h := mul_left_comm x y 0x80000000000000000000000000000000#128
  rwa [mul_msb_right, mul_msb_right] at h

theorem mul_assoc (x y z : Block) : mul (mul x y) z = mul x (mul y z) := by
  rw [mul_comm (mul x y) z, mul_left_comm z x y, mul_comm z y]

/-- Settles O15: products commute as polynomials in one linear map, and 80..00 turns that into both laws. -/
theorem mulIsCommutativeAndAssociative : Obligations.MulIsCommutativeAndAssociative := ⟨mul_comm, mul_assoc⟩

/-- The block 40..00 is one shift step of the block 80..00. -/
theorem mul_secondBit_left (y : Block) : mul 0x40000000000000000000000000000000#128 y = shiftedY y 1 := by
  have hshift : 0x40000000000000000000000000000000#128 = mulShift 0x80000000000000000000000000000000#128 := by decide
  rw [hshift, mul_comm, ← mulShift_mul, mul_msb_right]
  rfl

/-- Settles O14: the sum over the bits of X, linearity of the loop in X and in V, and the values at the corners. -/
theorem mulIsLinear : Obligations.MulIsLinear :=
  ⟨mul_eq_foldl_addTerm, mul_xor_left, mul_xor_right, mul_zero_left, mul_zero_right, mul_msb_left, mul_secondBit_left⟩

/-! GHASH, R113 -/

theorem foldl_ghashStep_xor (h : Block) {xs ys : List Block} (hlen : xs.length = ys.length) (a b : Block) :
    (List.zipWith (· ^^^ ·) xs ys).foldl (ghashStep h) (a ^^^ b) =
      xs.foldl (ghashStep h) a ^^^ ys.foldl (ghashStep h) b := by
  induction xs generalizing ys a b with
  | nil =>
    rw [List.eq_nil_of_length_eq_zero hlen.symm]
    rfl
  | cons x xs ih =>
    cases ys with
    | nil => cases hlen
    | cons y ys =>
      have hstep : ghashStep h (a ^^^ b) (x ^^^ y) = ghashStep h a x ^^^ ghashStep h b y := by
        rw [ghashStep, show a ^^^ b ^^^ (x ^^^ y) = (a ^^^ x) ^^^ (b ^^^ y) by ac_rfl, mul_xor_left]
        rfl
      rw [List.zipWith_cons_cons, List.foldl_cons, hstep, ih (Nat.succ.inj hlen)]
      rfl

/-- Settles O18: GHASH is a fold by definition, and each of its steps is linear. -/
theorem ghashIsALinearFold : Obligations.GhashIsALinearFold :=
  ⟨fun _ _ _ => List.foldl_append, fun h _ _ hlen => foldl_ghashStep_xor h hlen 0#128 0#128, ghash_zero_cons⟩

end Sys2Proof.Machine

/-! Counter mode as a function of the data, 43_gctr.md R134: its own inverse, and byte by byte a function of the data. -/

namespace Sys2Proof.Machine

/-- The same key stream byte is XORed twice. -/
theorem gctr_gctr (e : Block → Block) (icb : Block) (s : List Byte) : gctr e icb (gctr e icb s) = s := by
  refine List.ext_getElem (by rw [length_gctr, length_gctr]) fun j h _ => ?_
  rw [getElem_gctr, getElem_gctr, BitVec.xor_assoc, BitVec.xor_self, BitVec.xor_zero]

/-- A byte of the output depends on the byte of the input at its place. -/
theorem getElem?_gctr (e : Block → Block) (icb : Block) (s : List Byte) (j : Nat) :
    (gctr e icb s)[j]? = s[j]?.map (· ^^^ blockByte (e (inc32^[j / 16] icb)) (j % 16)) := by
  by_cases h : j < s.length
  · have h' : j < (gctr e icb s).length := by rwa [length_gctr]
    rw [List.getElem?_eq_getElem h', List.getElem?_eq_getElem h, getElem_gctr, Option.map_some]
  · rw [List.getElem?_eq_none (by rw [length_gctr]; exact Nat.not_lt.1 h), List.getElem?_eq_none (Nat.not_lt.1 h),
      Option.map_none]

theorem gctr_take (e : Block → Block) (icb : Block) (s : List Byte) (k : Nat) :
    gctr e icb (s.take k) = (gctr e icb s).take k := by
  refine List.ext_getElem? fun j => ?_
  simp only [getElem?_gctr, List.getElem?_take]
  split <;> rfl

/-- A window of the output depends on the same window of the input. -/
theorem gctr_window (e : Block → Block) (icb : Block) {s s' : List Byte} {a n : Nat}
    (h : (s.drop a).take n = (s'.drop a).take n) :
    ((gctr e icb s).drop a).take n = ((gctr e icb s').drop a).take n := by
  refine List.ext_getElem? fun j => ?_
  have hj := congrArg (·[j]?) h
  simp only [List.getElem?_take, List.getElem?_drop, getElem?_gctr] at hj ⊢
  split
  · next hlt =>
    rw [if_pos hlt, if_pos hlt] at hj
    rw [hj]
  · rfl

/-- Settles O27: byte by byte, the output is the input under a key stream that does not depend on the data. -/
theorem gctrIsItsOwnInverse : Obligations.GctrIsItsOwnInverse :=
  fun e icb => ⟨gctr_gctr e icb, fun _ _ _ _ => gctr_window e icb, gctr_take e icb, length_gctrCalls icb⟩

end Sys2Proof.Machine

/-! What a command writes, 30_encoding.md R90: STATUS and its own row, and nothing that it reads from a buffer. -/

namespace Sys2Proof.Machine

/-! Completion, 60_exceptions.md R184 and R185 -/

theorem completed_raise (s : State) (k : ErrorKind) (d : Bool) : Completed s (s.raise k d) k.code := (raised_raise s k d).1

theorem Effect.completed {s t : State} {i : Instr} (h : Effect s i t) : Completed s t t.code := by
  have named : ∃ c, Completed s t c := by
    cases h with
    | raised _ => exact ⟨_, completed_raise s _ _⟩
    | gfmul | ghash _ _ | derivej0 _ _ | inc32 | gctr _ _ _ | derivecommon _ _ _ | computetag _ _ _ _ | encrypt _ _
    | encryptappend _ _ => exact ⟨0#4, completed_completeOk rfl⟩
    | decrypt _ _ _ _ | decryptappended _ _ =>
      rcases verifyAndDecrypt_cases s _ _ _ _ _ _ with hv | hv <;> rw [hv]
      · exact ⟨0#4, completed_completeOk rfl⟩
      · exact ⟨_, completed_raise s _ _⟩
  obtain ⟨c, hc, hdone, hreserved⟩ := named
  exact ⟨rfl, hdone, hreserved⟩

theorem issue_completed {w : Word} {s t : State} (h : issue w s = .next t) : t.done = true := by
  cases hw : decode w with
  | ok i => exact (exec_next ((issue_ok hw s).symm.trans h)).completed.2.1
  | error e =>
    cases (issue_illegal (fun i hi => nomatch hw.symm.trans hi) s).symm.trans h
    exact State.done_raise _ _ _

@[simp] theorem State.setCsr_status (s : State) (n : Nat) (v : Word) : (s.setCsr n v).status = s.status := by
  unfold State.setCsr
  split <;> rfl

theorem hostMove_keeps_done {m : HostMove} {s t : State} (h : hostMove m s = .next t) (hd : s.done = true) :
    t.done = true := by
  cases m with
  | csrRead n => cases h; exact hd
  | csrWrite n v =>
    cases n with
    | zero => exact issue_completed h
    | succ n =>
      cases h
      rwa [State.done, State.setCsr_status]
  | blkRead r => cases h; exact hd
  | blkWrite r v => cases h; exact hd
  | bufRead b a =>
    obtain ⟨-, v, -, rfl⟩ := hostBufRead_next h
    exact hd
  | bufWrite b a v =>
    obtain ⟨-, ⟨-, rfl⟩ | ⟨-, rfl⟩⟩ := hostBufWrite_next h
    · exact hd
    · exact hd

/-- Settles O11, by the kinds of input: a host move keeps STATUS, or is a command word and sets DONE. -/
theorem onlyResetClearsDone : Obligations.OnlyResetClearsDone := by
  intro s t hs hd
  cases hp : s.pending with
  | nil =>
    cases (step_nil hp).symm.trans hs
    exact .inl hd
  | cons x rest =>
    cases x with
    | move m => exact .inl (hostMove_keeps_done (s := { s with pending := rest }) ((step_move hp).symm.trans hs) hd)
    | reset => exact .inr ⟨rest, rfl⟩

/-! Frames -/

/-- What a command may change. -/
def KeepsRow (i : Instr) (s t : State) : Prop :=
  Frame s t (blkWrites i) (if hasDout i then [1, 6] else [1]) (fun b _ => writesByte i b)

theorem keepsRow_raise (i : Instr) (s : State) (k : ErrorKind) : KeepsRow i s (s.raise k (hasDout i)) :=
  (frame_raise s k (hasDout i)).mono (fun _ hr => nomatch hr) (fun _ => id) fun _ _ => False.elim

theorem keepsRow_putDout {i : Instr} (hi : hasDout i = true) (s : State) (r : List Byte) :
    KeepsRow i s (s.putDout r).completeOk := by
  refine (frame_putDout_completeOk s r).mono (fun _ hr => nomatch hr) (fun n hn => ?_) ?_
  · rwa [if_pos hi]
  · rintro b a ⟨rfl, -⟩
    exact hi

theorem keepsRow_completeOk (i : Instr) (s : State) : KeepsRow i s s.completeOk :=
  ⟨fun _ _ => rfl, keepsCsrs_of (.inl (by split <;> decide)) rfl rfl rfl rfl (.inr rfl), fun _ _ _ => rfl, rfl, rfl, rfl⟩

theorem KeepsRow.putTag {i : Instr} {s u : State} (h : KeepsRow i s u) (hi : writesTag i = true) {tag : List Byte}
    (hl : tag.length ≤ 16) : KeepsRow i s (u.putTag tag) := by
  have htag : Frame u (u.putTag tag) [] [] (fun b _ => writesByte i b) :=
    (frame_putTag u hl).mono (fun _ => id) (fun _ => id) (by rintro b a ⟨rfl, -⟩; exact hi)
  refine Frame.mono (Frame.trans h htag) (fun r hr => ?_) (fun n hn => ?_) fun _ _ => id
  · rwa [List.append_nil] at hr
  · rwa [List.append_nil] at hn

theorem keepsRow_verifyAndDecrypt {i : Instr} (hi : hasDout i = true) (s : State) (e : Block → Block)
    (iv a c tag : List Byte) (t : Nat) : KeepsRow i s (verifyAndDecrypt s e iv a c tag t) := by
  rcases verifyAndDecrypt_cases s e iv a c tag t with hv | hv <;> rw [hv]
  · exact keepsRow_putDout hi s _
  · rw [← hi]
    exact keepsRow_raise i s _

theorem Effect.keepsRow {s t : State} {i : Instr} (h : Effect s i t) : KeepsRow i s t := by
  have blk {i : Instr} {r : BlkReg} (hr : blkWrites i = [r]) (hi : hasDout i = false) (v : Block) :
      KeepsRow i s (s.setBlk r v).completeOk :=
    (frame_setBlk_completeOk s r v).mono (fun _ hq => hr ▸ hq) (fun _ hn => by rwa [hi]) fun _ _ => False.elim
  cases h with
  | raised _ => exact keepsRow_raise i s _
  | gfmul | ghash _ _ | derivej0 _ _ | inc32 => exact blk rfl rfl _
  | derivecommon _ _ _ =>
    exact ((frame_setBlk s .hk _).trans (frame_setBlk_completeOk _ .j0 _)).mono (fun _ => id) (fun _ => id)
      fun _ _ => False.elim
  | gctr _ _ _ | encryptappend _ _ => exact keepsRow_putDout rfl s _
  | computetag _ _ _ _ => exact (keepsRow_completeOk _ s).putTag rfl (length_computeTag_le _ _ _ _ _ _)
  | encrypt _ _ => exact (keepsRow_putDout rfl s _).putTag rfl (length_expectedTag_le _ _ _ _ _)
  | decrypt _ _ _ _ | decryptappended _ _ => exact keepsRow_verifyAndDecrypt rfl s _ _ _ _ _ _

/-- Settles O44, by the inversion `exec_next` of what a command can have done. -/
theorem commandsWriteOnlyTheirRow : Obligations.CommandsWriteOnlyTheirRow := fun _ _ _ h =>
  ⟨(exec_next h).completed, (exec_next h).keepsRow⟩

/-! Operands after a command -/

theorem HoldsOperand.of_eq {s t : State} {b : Buf} {v : List Byte} (h : HoldsOperand s b v) (hlen : t.lenOf b = s.lenOf b)
    (hbytes : ∀ a, t.byte b a = s.byte b a) : HoldsOperand t b v :=
  ⟨hlen ▸ h.1, fun j hj => (hbytes _).trans (h.2 j hj)⟩

/-- No command changes an operand of KEY, IV, AAD or DIN. -/
theorem exec_keeps_operand {i : Instr} {s t : State} (h : exec i s = .next t) {b : Buf} {v : List Byte}
    (hv : HoldsOperand s b v) (hb : b ≠ .dout) (hb' : b ≠ .tag) : HoldsOperand t b v := by
  obtain ⟨-, hcsrs, hbytes, -⟩ := (exec_next h).keepsRow
  have hcsr : ∀ n ∈ [2, 3, 4, 5], t.csr n = s.csr n := fun n hn => hcsrs n (by
    cases hasDout i <;> revert n <;> decide)
  cases b with
  | dout => exact absurd rfl hb
  | tag => exact absurd rfl hb'
  | key => exact hv.of_eq (hcsr 2 (by decide)) fun a => hbytes .key a id
  | iv => exact hv.of_eq (hcsr 3 (by decide)) fun a => hbytes .iv a id
  | aad => exact hv.of_eq (hcsr 4 (by decide)) fun a => hbytes .aad a id
  | din => exact hv.of_eq (hcsr 5 (by decide)) fun a => hbytes .din a id

end Sys2Proof.Machine

/-! Round trips of the one-shot commands and the chain of primitives, 45_aead_ops.md R156 and 70_reset_and_hazards.md
R208. -/

namespace Sys2Proof.Machine

theorem cryptData_cryptData (e : Block → Block) (iv s : List Byte) : cryptData e iv (cryptData e iv s) = s :=
  gctr_gctr e _ s

/-- 44_tag_engine.md R143: a shorter tag is the leading bytes of a longer one. -/
theorem expectedTag_take {t t' : Nat} (h : t' ≤ t) (e : Block → Block) (iv aad c : List Byte) :
    expectedTag e iv aad c t' = (expectedTag e iv aad c t).take (t' / 8) := by
  have hle : t' / 8 ≤ t / 8 := Nat.div_le_div_right h
  rw [expectedTag, expectedTag, computeTag_eq, computeTag_eq, List.take_take, Nat.min_eq_left hle]

theorem length_expectedTag_of_legal {t : Nat} (ht : t ∈ [96, 104, 112, 120, 128]) (e : Block → Block)
    (iv aad c : List Byte) : (expectedTag e iv aad c t).length = t / 8 :=
  length_computeTag (tagLen_le t ht) _ _ _ _ _

section Ready
variable {s u : State} {t : Nat} {key iv aad pt c : List Byte}

/-- What ENCRYPT leaves on ready operands, R151. -/
theorem AeadReady.results_encrypt (h : AeadReady s t key iv aad pt) (hu : exec (.encrypt t) s = .next u) :
    HoldsResult u (cryptData (Config.blockCipher key) iv pt) ∧
      HoldsTag u (expectedTag (Config.blockCipher key) iv aad (cryptData (Config.blockCipher key) iv pt) t) := by
  cases h.exec_encrypt.symm.trans hu
  have hres := holdsResult_putDout s (cryptData (Config.blockCipher key) iv pt)
    (by rw [length_cryptData]; exact h.dinHeld.length_lt)
  exact ⟨hres.putTag _, holdsTag_putTag _ _⟩

/-- The ciphertext that stands in DOUT after ENCRYPT, and the tag over it that stands in TAG. -/
theorem AeadReady.encrypted (h : AeadReady s t key iv aad pt) (hu : exec (.encrypt t) s = .next u) (hc : HoldsResult u c) :
    c = cryptData (Config.blockCipher key) iv pt ∧ HoldsTag u (expectedTag (Config.blockCipher key) iv aad c t) := by
  obtain ⟨hres, htag⟩ := h.results_encrypt hu
  obtain rfl := hc.unique hres
  exact ⟨rfl, htag⟩

/-- What ENCRYPTAPPEND leaves on ready operands, R154. -/
theorem AeadReady.encryptappended (h : AeadReady s t key iv aad pt) (hu : exec (.encryptappend t) s = .next u)
    (hc : HoldsResult u c) :
    c = cryptData (Config.blockCipher key) iv pt ++
      expectedTag (Config.blockCipher key) iv aad (cryptData (Config.blockCipher key) iv pt) t := by
  cases h.exec_encryptappend.symm.trans hu
  refine hc.unique (holdsResult_putDout s _ ?_)
  have hcap := capDin_add_lt
  have hfit := h.dinFits
  have htag := length_expectedTag_le (Config.blockCipher key) iv aad (cryptData (Config.blockCipher key) iv pt) t
  rw [List.length_append, length_cryptData]
  omega

end Ready

/-- The bytes of a string that stands from offset 0, one by one. -/
theorem Holds.byte {s : State} {b : Buf} {v : List Byte} (h : Holds s b 0 v) {a : Nat} (ha : a < v.length) :
    s.byte b a = some v[a] := by
  have := h a ha
  rwa [Nat.zero_add] at this

theorem Holds.take {s : State} {b : Buf} {a : Nat} {v : List Byte} (h : Holds s b a v) (k : Nat) :
    Holds s b a (v.take k) := by
  intro j hj
  rw [h j (List.length_take_le' _ _ |>.trans_lt' hj), List.getElem_take]

theorem Holds.of_byte_eq {s t : State} {b : Buf} {v : List Byte} (h : Holds s b 0 v)
    (hbytes : ∀ a, a < v.length → t.byte b a = s.byte b a) : Holds t b 0 v :=
  fun j hj => (hbytes (0 + j) ((Nat.zero_add j).symm ▸ hj)).trans (h j hj)

/-- A verification that finds the expected tag leaves the plaintext. -/
theorem opens_to_plaintext (s : State) (e : Block → Block) (iv aad pt : List Byte) (t : Nat) (hpt : pt.length < 2 ^ 32) :
    (verifyAndDecrypt s e iv aad (cryptData e iv pt) (expectedTag e iv aad (cryptData e iv pt) t) t).code = 0#4 ∧
      HoldsResult (verifyAndDecrypt s e iv aad (cryptData e iv pt) (expectedTag e iv aad (cryptData e iv pt) t) t) pt := by
  rw [verifyAndDecrypt_of_match s ((tagEq_iff rfl).2 rfl), cryptData_cryptData]
  exact ⟨State.code_completeOk _, holdsResult_putDout s pt hpt⟩

/-- Settles O38: the leading bytes of ENCRYPT's tag are the tag DECRYPT expects, and the same key stream gives the plaintext
back. -/
theorem decryptUndoesEncrypt : Obligations.DecryptUndoesEncrypt := by
  intro s u v t t' key iv aad pt c hs hu hc hv hle hbytes
  obtain ⟨rfl, htag⟩ := hs.encrypted hu hc
  have hlen := length_expectedTag_of_legal hv.tagLegal (Config.blockCipher key) iv aad
    (cryptData (Config.blockCipher key) iv pt)
  have hheld : Holds v .tag 0
      (expectedTag (Config.blockCipher key) iv aad (cryptData (Config.blockCipher key) iv pt) t') := by
    have hleading := htag.1.take (t' / 8)
    rw [← expectedTag_take hle] at hleading
    exact hleading.of_byte_eq fun a ha => hbytes a (hlen ▸ ha)
  exact ⟨_, hv.exec_decrypt hlen hheld, opens_to_plaintext v _ iv aad pt t' hs.dinHeld.length_lt⟩

/-- A run of bytes that all hold a value is a string. -/
theorem exists_holds {s : State} {b : Buf} {n : Nat} (h : ∀ a, a < n → s.byte b a ≠ none) :
    ∃ v : List Byte, v.length = n ∧ Holds s b 0 v := by
  cases hv : s.bytesAt b 0 n with
  | ok v => exact ⟨v, (State.bytesAt_eq_ok s b 0 n v).1 hv⟩
  | error f =>
    obtain ⟨-, a, ha, hnone⟩ := (State.bytesAt_eq_error s b 0 n f).1 hv
    rw [Nat.zero_add] at hnone
    exact absurd hnone (h a ha)

/-- Settles O39: a tag that differs in a byte is not the expected one. -/
theorem changedTagFailsToDecrypt : Obligations.ChangedTagFailsToDecrypt := by
  rintro s u v t key iv aad pt c hs hu hc hv hsome ⟨a, ha, hne⟩
  obtain ⟨-, htag⟩ := hs.encrypted hu hc
  obtain ⟨tag, hl, hheld⟩ := exists_holds hsome
  have hdiff : ¬ tagEq (expectedTag (Config.blockCipher key) iv aad c t) tag = true := by
    rw [tagEq_expectedTag_iff hs.tagLegal hl]
    rintro rfl
    have hlt : a < (expectedTag (Config.blockCipher key) iv aad c t).length := hl ▸ ha
    exact hne ((hheld.byte hlt).trans (htag.1.byte hlt).symm)
  refine ⟨_, hv.exec_decrypt hl hheld, ?_⟩
  rw [verifyAndDecrypt_of_mismatch v hdiff]
  exact raised_raise v .authenticationFailure true

/-- Settles O40: the result in DIN is split where it was joined. -/
theorem decryptappendedUndoesEncryptappend : Obligations.DecryptappendedUndoesEncryptappend := by
  intro s u v t key iv aad pt c hs hu hc hv
  obtain rfl := hs.encryptappended hu hc
  exact ⟨_, hv.exec_decryptappended_append (length_expectedTag_of_legal hs.tagLegal _ _ _ _),
    opens_to_plaintext v _ iv aad pt t hs.dinHeld.length_lt⟩

/-- What DERIVECOMMON leaves in its registers, R141. -/
theorem registers_derivecommon {s t : State} {key iv : List Byte} (h : exec .derivecommon s = .next t)
    (hk : HoldsOperand s .key key) (hiv : HoldsOperand s .iv iv) (hlegal : key.length ∈ [16, 24, 32])
    (hfit : iv.length ≤ Config.capIv) :
    t.getBlk .hk = hashSubkey (Config.blockCipher key) ∧ t.getBlk .j0 = deriveJ0int (Config.blockCipher key) iv := by
  cases (exec_derivecommon_of hk hiv hlegal hfit).symm.trans h
  exact ⟨rfl, rfl⟩

/-- What the copy of J0 to CB and INC32 leave in the registers, R124. -/
theorem registers_inc32_of_j0 {s t : State} (h : exec .inc32 (s.setBlk .cb (s.getBlk .j0)) = .next t) :
    t.getBlk .hk = s.getBlk .hk ∧ t.getBlk .j0 = s.getBlk .j0 ∧ t.getBlk .cb = inc32 (s.getBlk .j0) := by
  cases h
  exact ⟨rfl, rfl, rfl⟩

/-- The bytes of TAG are fixed by the tag that stands in it. -/
theorem HoldsTag.byte_eq {s t : State} {tag : List Byte} (hs : HoldsTag s tag) (ht : HoldsTag t tag) {a : Nat}
    (ha : a < 16) : s.byte .tag a = t.byte .tag a := by
  by_cases h : a < tag.length
  · rw [hs.1.byte h, ht.1.byte h]
  · rw [hs.2 a (Nat.not_lt.1 h) ha, ht.2 a (Nat.not_lt.1 h) ha]

/-- Settles O41: the registers carry H, J0 and INC32(J0) from one primitive to the next, and KEY and DIN stay as they are. -/
theorem encryptIsItsPrimitives : Obligations.EncryptIsItsPrimitives := by
  intro s u s1 s2 s3 s4 s5 t key iv aad pt c h hu h1 h2 h3 hc hkey haad hdin hhk hj0 h5
  have inputs {b : Buf} {v : List Byte} (hv : HoldsOperand s b v) (hb : b ≠ .dout) (hb' : b ≠ .tag) :
      HoldsOperand s2 b v := by
    have hv1 := exec_keeps_operand h1 hv hb hb'
    exact exec_keeps_operand h2 (hv1.of_eq (by cases b <;> rfl) fun _ => rfl) hb hb'
  obtain ⟨hhk1, hj01⟩ := registers_derivecommon h1 h.keyHeld h.ivHeld h.keyLegal h.ivFits
  obtain ⟨hhk2, hj02, hcb2⟩ := registers_inc32_of_j0 h2
  cases (exec_gctr_of (inputs h.keyHeld nofun nofun) (inputs h.dinHeld nofun nofun) h.keyLegal h.dinFits).symm.trans h3
  have hcrypt : gctr (Config.blockCipher key) (s2.getBlk .cb) pt = cryptData (Config.blockCipher key) iv pt := by
    rw [hcb2, hj01, cryptData]
  have hlen : (cryptData (Config.blockCipher key) iv pt).length = pt.length := length_cryptData _ _ _
  rw [hcrypt] at hc hhk hj0
  obtain rfl := hc.unique (holdsResult_putDout s2 _ (hlen ▸ h.dinHeld.length_lt))
  cases (exec_computetag_of hkey haad hdin h.keyLegal h.tagLegal h.aadFits (hlen ▸ h.dinFits)).symm.trans h5
  obtain ⟨hres, htag⟩ := h.results_encrypt hu
  refine ⟨hres, fun a ha => HoldsTag.byte_eq (holdsTag_putTag s4 _) ?_ ha⟩
  have hhk4 : s4.getBlk .hk = hashSubkey (Config.blockCipher key) := hhk.trans (hhk2.trans hhk1)
  have hj04 : s4.getBlk .j0 = deriveJ0int (Config.blockCipher key) iv := hj0.trans (hj02.trans hj01)
  rw [hhk4, hj04]
  exact htag

end Sys2Proof.Machine

/-! What a command depends on, 10_state.md R33 and R35: the leading bytes of the buffers of its row, its length and block
registers, and nothing else. -/

namespace Sys2Proof.Machine

/-! The bytes a command reads -/

/-- How many leading bytes of a buffer a command reads, 30_encoding.md R90. -/
def readLen (i : Instr) (s : State) : Buf → Nat
  | .key => cond (usesKey i) s.keylen.toNat 0
  | .iv => cond (usesIv i) s.ivlen.toNat 0
  | .aad => cond (usesAad i) s.aadlen.toNat 0
  | .din => cond (usesDin i) s.dinlen.toNat 0
  | .dout => 0
  | .tag =>
    match i with
    | .decrypt t => t / 8
    | _ => 0

theorem readsByte_iff {i : Instr} {s : State} {b : Buf} {a : Nat} : readsByte i s b a ↔ a < readLen i s b := by
  have guarded (u : Bool) (n : Nat) : (u = true ∧ a < n) ↔ a < cond u n 0 := by cases u <;> simp
  cases b with
  | key => exact guarded _ _
  | iv => exact guarded _ _
  | aad => exact guarded _ _
  | din => exact guarded _ _
  | dout => exact ⟨False.elim, Nat.not_lt_zero a⟩
  | tag => cases i <;> simp [readsByte, readLen]

/-- What a command reads of a buffer, as one string. -/
def readOf (i : Instr) (s : State) (b : Buf) : Except Fault (List Byte) := s.bytesAt b 0 (readLen i s b)

theorem of_readOf_eq_error {i : Instr} {s : State} {b : Buf} {f : Fault} (h : readOf i s b = .error f) :
    f = .unwrittenByte b ∧ ∃ a, readsByte i s b a ∧ s.byte b a = none := by
  obtain ⟨hf, a, ha, hnone⟩ := (State.bytesAt_eq_error s b 0 _ f).1 h
  rw [Nat.zero_add] at hnone
  exact ⟨hf, a, readsByte_iff.2 ha, hnone⟩

theorem byte_ne_none_of_readOf_eq_ok {i : Instr} {s : State} {b : Buf} {v : List Byte} (h : readOf i s b = .ok v) {a : Nat}
    (ha : readsByte i s b a) : s.byte b a ≠ none := by
  obtain ⟨hlen, hheld⟩ := (State.bytesAt_eq_ok s b 0 _ v).1 h
  rw [Holds.byte hheld (hlen.symm ▸ readsByte_iff.1 ha)]
  exact Option.some_ne_none _

/-- Reading is a function of the bytes read. -/
theorem Memory.readBytes_congr {m m' : Memory} {a n : Nat} (h : ∀ j, j < n → m'.read (a + j) = m.read (a + j)) :
    m'.readBytes a n = m.readBytes a n := by
  induction n generalizing a with
  | zero => rfl
  | succ n ih =>
    have hrest : m'.readBytes (a + 1) n = m.readBytes (a + 1) n := ih fun j hj => by
      rw [Nat.add_assoc, Nat.add_comm 1 j]
      exact h (j + 1) (Nat.succ_lt_succ hj)
    rw [Memory.readBytes, Memory.readBytes, hrest, ← Nat.add_zero a, h 0 n.succ_pos]

theorem SameInputs.getBlk_eq {i : Instr} {s s' : State} (h : SameInputs i s s') {r : BlkReg} (hr : r ∈ blkReads i) :
    s'.getBlk r = s.getBlk r := h.1 r hr

theorem SameInputs.readLen_eq {i : Instr} {s s' : State} (h : SameInputs i s s') (b : Buf) :
    readLen i s' b = readLen i s b := by
  obtain ⟨-, hkey, hiv, haad, hdin, -⟩ := h
  have guarded {u : Bool} {n n' : Word} (hn : u = true → n' = n) : cond u n'.toNat 0 = cond u n.toNat 0 := by
    cases u with
    | true => rw [hn rfl]
    | false => rfl
  cases b with
  | key => exact guarded hkey
  | iv => exact guarded hiv
  | aad => exact guarded haad
  | din => exact guarded hdin
  | dout => rfl
  | tag => rfl

theorem SameInputs.readOf_eq {i : Instr} {s s' : State} (h : SameInputs i s s') (b : Buf) :
    readOf i s' b = readOf i s b := by
  have hread : (s'.buf.get b).readBytes 0 (readLen i s b) = (s.buf.get b).readBytes 0 (readLen i s b) := by
    obtain ⟨-, -, -, -, -, hbytes⟩ := h
    refine Memory.readBytes_congr fun a ha => ?_
    rw [Nat.zero_add]
    exact hbytes b a (readsByte_iff.2 ha)
  rw [readOf, h.readLen_eq, State.bytesAt, hread]
  rfl

/-- The checks of a command are made on the length registers of its row. -/
theorem SameInputs.checksOf_eq {i : Instr} {s s' : State} (h : SameInputs i s s') (p : Params) :
    checksOf p i s' = checksOf p i s := by
  obtain ⟨-, hkey, hiv, haad, hdin, -⟩ := h
  cases i with
  | gfmul | inc32 => rfl
  | ghash => simp only [checksOf, checkFits, checkWholeBlocks, State.lenOf, hdin rfl]
  | derivej0 => simp only [checksOf, checkNonce, checkFits, State.lenOf, hiv rfl]
  | gctr => simp only [checksOf, checkKey, checkFits, State.lenOf, hkey rfl, hdin rfl]
  | derivecommon => simp only [checksOf, checkKey, checkNonce, checkFits, State.lenOf, hkey rfl, hiv rfl]
  | computetag _ => simp only [checksOf, checkKey, checkFits, State.lenOf, hkey rfl, haad rfl, hdin rfl]
  | encrypt _ | decrypt _ | encryptappend _ =>
    simp only [checksOf, checksAead, checkKey, checkNonce, checkFits, State.lenOf, hkey rfl, hiv rfl, haad rfl, hdin rfl]
  | decryptappended _ =>
    simp only [checksOf, checksAead, checkKey, checkNonce, checkFits, checkCombined, State.lenOf, hkey rfl, hiv rfl,
      haad rfl, hdin rfl]

/-- The buffers a command reads, 30_encoding.md R90. -/
def rowBufs : Instr → List Buf
  | .gfmul | .inc32 => []
  | .ghash => [.din]
  | .derivej0 => [.iv]
  | .gctr => [.key, .din]
  | .derivecommon => [.key, .iv]
  | .computetag _ => [.key, .aad, .din]
  | .encrypt _ | .encryptappend _ | .decryptappended _ => [.key, .iv, .aad, .din]
  | .decrypt _ => [.key, .iv, .aad, .din, .tag]

theorem mem_rowBufs_of_readLen_ne_zero {i : Instr} {s : State} {b : Buf} (h : readLen i s b ≠ 0) : b ∈ rowBufs i := by
  cases i <;> cases b <;> simp [rowBufs, readLen, usesKey, usesIv, usesAad, usesDin] at h ⊢

theorem mem_rowBufs {i : Instr} {s : State} {b : Buf} {a : Nat} (h : readsByte i s b a) : b ∈ rowBufs i :=
  mem_rowBufs_of_readLen_ne_zero (Nat.ne_zero_of_lt (readsByte_iff.1 h))

/-! Operands as the strings of a command's row -/

/-- The operands `ops` of command i are made of what it reads of the buffers bs: they stop with a read that stops, need every
one of the reads, and are a function of them. -/
structure ReadsBufs (i : Instr) (bs : List Buf) {α : Type} (ops : State → Except Fault α) : Prop where
  stops : ∀ {s f}, ops s = .error f → ∃ b ∈ bs, readOf i s b = .error f
  holds : ∀ {s x}, ops s = .ok x → ∀ b ∈ bs, ∃ v, readOf i s b = .ok v
  congr : ∀ {s s'}, (∀ b ∈ bs, readOf i s' b = readOf i s b) → ops s' = ops s

section Reads
variable {i : Instr} {α β : Type}

theorem readsBufs_pure (x : α) : ReadsBufs i [] (fun _ => .ok x) where
  stops h := nomatch h
  holds _ _ hb := nomatch hb
  congr _ := rfl

theorem readsBufs_readOf (i : Instr) (b : Buf) : ReadsBufs i [b] (readOf i · b) where
  stops h := ⟨b, List.mem_singleton_self b, h⟩
  holds h _ hb := List.mem_singleton.1 hb ▸ ⟨_, h⟩
  congr h := h b (List.mem_singleton_self b)

/-- A whole operand is what the command reads of its buffer. -/
theorem readsBufs_operand {b : Buf} (h : ∀ s : State, readLen i s b = (s.lenOf b).toNat) :
    ReadsBufs i [b] (·.operand b) := by
  have hread (s : State) : readOf i s b = s.operand b := by rw [readOf, h, State.operand]
  simpa only [hread] using readsBufs_readOf i b

theorem ReadsBufs.bind {bs bs' : List Buf} {ops : State → Except Fault α} {next : α → State → Except Fault β}
    (h : ReadsBufs i bs ops) (h' : ∀ x, ReadsBufs i bs' (next x)) :
    ReadsBufs i (bs ++ bs') (fun s => ops s >>= (next · s)) where
  stops {s f} hf := by
    cases hx : ops s with
    | error e =>
      rw [hx] at hf
      obtain rfl : e = f := Except.error.inj hf
      obtain ⟨b, hb, hread⟩ := h.stops hx
      exact ⟨b, List.mem_append_left _ hb, hread⟩
    | ok x =>
      rw [hx] at hf
      obtain ⟨b, hb, hread⟩ := (h' x).stops hf
      exact ⟨b, List.mem_append_right _ hb, hread⟩
  holds {s y} hy b hb := by
    cases hx : ops s with
    | error e =>
      rw [hx] at hy
      cases hy
    | ok x =>
      rw [hx] at hy
      exact (List.mem_append.1 hb).elim (h.holds hx b) ((h' x).holds hy b)
  congr {s s'} heq := by
    rw [h.congr fun b hb => heq b (List.mem_append_left _ hb)]
    exact congrArg _ (funext fun x => (h' x).congr fun b hb => heq b (List.mem_append_right _ hb))

/-! The operands of the commands, each as a chain of reads -/

theorem gctrOperands_reads : ReadsBufs .gctr [.key, .din] gctrOperands :=
  (readsBufs_operand fun _ => rfl).bind fun _ => (readsBufs_operand fun _ => rfl).bind fun _ => readsBufs_pure _

theorem deriveOperands_reads : ReadsBufs .derivecommon [.key, .iv] deriveOperands :=
  (readsBufs_operand fun _ => rfl).bind fun _ => (readsBufs_operand fun _ => rfl).bind fun _ => readsBufs_pure _

theorem tagOperands_reads (t : Nat) : ReadsBufs (.computetag t) [.key, .aad, .din] tagOperands :=
  (readsBufs_operand fun _ => rfl).bind fun _ => (readsBufs_operand fun _ => rfl).bind fun _ =>
    (readsBufs_operand fun _ => rfl).bind fun _ => readsBufs_pure _

theorem aeadOperands_reads (hkey : ∀ s : State, readLen i s .key = s.keylen.toNat)
    (hiv : ∀ s : State, readLen i s .iv = s.ivlen.toNat) (haad : ∀ s : State, readLen i s .aad = s.aadlen.toNat)
    (hdin : ∀ s : State, readLen i s .din = s.dinlen.toNat) : ReadsBufs i [.key, .iv, .aad, .din] aeadOperands :=
  (readsBufs_operand hkey).bind fun _ => (readsBufs_operand hiv).bind fun _ => (readsBufs_operand haad).bind fun _ =>
    (readsBufs_operand hdin).bind fun _ => readsBufs_pure _

theorem decryptOperands_reads (t : Nat) : ReadsBufs (.decrypt t) [.key, .iv, .aad, .din, .tag] (decryptOperands t) :=
  (aeadOperands_reads (fun _ => rfl) (fun _ => rfl) (fun _ => rfl) fun _ => rfl).bind fun _ =>
    (readsBufs_readOf _ .tag).bind fun _ => readsBufs_pure _

end Reads

/-! What a command leaves, as a function of its inputs -/

section Results
variable {i : Instr} {s s' : State}

theorem sameResults_raise (k : ErrorKind) : SameResults i (s.raise k (hasDout i)) (s'.raise k (hasDout i)) := by
  refine ⟨by simp only [State.code_raise], by simp only [State.done_raise], fun hd => ?_, fun hok => ?_⟩
  · rw [hd]
    rfl
  · rw [State.code_raise] at hok
    exact absurd hok k.code_ne_zero

theorem sameResults_completeOk (hblk : ∀ r ∈ blkWrites i, s'.getBlk r = s.getBlk r)
    (hdout : hasDout i = true → s'.doutlen = s.doutlen ∧ ∀ a, a < s.doutlen.toNat → s'.byte .dout a = s.byte .dout a)
    (htag : writesTag i = true → ∀ a, a < 16 → s'.byte .tag a = s.byte .tag a) :
    SameResults i s.completeOk s'.completeOk :=
  ⟨by simp only [State.code_completeOk], by simp only [State.done_completeOk], fun hd => (hdout hd).1,
    fun _ => ⟨hblk, fun hd => (hdout hd).2, htag⟩⟩

/-- A command whose one result is in block registers. -/
theorem sameResults_blk (hd : hasDout i = false) (ht : writesTag i = false)
    (hblk : ∀ r ∈ blkWrites i, s'.getBlk r = s.getBlk r) : SameResults i s.completeOk s'.completeOk :=
  sameResults_completeOk hblk (fun h => nomatch hd.symm.trans h) fun h => nomatch ht.symm.trans h

theorem sameResults_setBlk {r : BlkReg} {v v' : Block} (hr : blkWrites i = [r]) (hd : hasDout i = false)
    (ht : writesTag i = false) (hv : v' = v) : SameResults i (s.setBlk r v).completeOk (s'.setBlk r v').completeOk := by
  refine sameResults_blk hd ht fun q hq => ?_
  obtain rfl := List.mem_singleton.1 (hr ▸ hq)
  rw [State.getBlk_setBlk, State.getBlk_setBlk, if_pos rfl, if_pos rfl, hv]

theorem same_putDout (s s' : State) (r : List Byte) : (s'.putDout r).doutlen = (s.putDout r).doutlen ∧
    ∀ a, a < (s.putDout r).doutlen.toNat → (s'.putDout r).byte .dout a = (s.putDout r).byte .dout a := by
  refine ⟨rfl, fun a ha => ?_⟩
  rw [State.putDout_doutlen, BitVec.toNat_ofNat] at ha
  have hlt : a < r.length := ha.trans_le (Nat.mod_le _ _)
  rw [State.byte_putDout, State.byte_putDout, dif_pos ⟨rfl, hlt⟩, dif_pos ⟨rfl, hlt⟩]

theorem same_putTag (s s' : State) (tag : List Byte) (a : Nat) (ha : a < 16) :
    (s'.putTag tag).byte .tag a = (s.putTag tag).byte .tag a := by
  rw [State.byte_putTag, State.byte_putTag, if_pos ⟨rfl, ha⟩, if_pos ⟨rfl, ha⟩]

/-- A command whose one result is in DOUT. -/
theorem sameResults_dout (hr : blkWrites i = []) (ht : writesTag i = false) (r : List Byte) :
    SameResults i (s.putDout r).completeOk (s'.putDout r).completeOk :=
  sameResults_completeOk (hr ▸ nofun) (fun _ => same_putDout s s' r) fun h => nomatch ht.symm.trans h

theorem sameResults_verifyAndDecrypt (hd : hasDout i = true) (hr : blkWrites i = []) (ht : writesTag i = false)
    (e : Block → Block) (iv a c tag : List Byte) (t : Nat) :
    SameResults i (verifyAndDecrypt s e iv a c tag t) (verifyAndDecrypt s' e iv a c tag t) := by
  unfold verifyAndDecrypt
  split
  · exact sameResults_dout hr ht _
  · rw [← hd]
    exact sameResults_raise _

end Results

/-! The shape of every command -/

/-- Command i is its body after its validations, on operands made of what it reads of its row's buffers; and what the body
leaves is a function of the operands and the inputs of the row. -/
structure CommandShape (i : Instr) {α : Type} (ops : State → Except Fault α) (body : State → α → State) : Prop where
  exec_eq : ∀ s, exec i s = runCommand Config.params i (ops s) (body s) s
  reads : ReadsBufs i (rowBufs i) ops
  same : ∀ {s s'}, SameInputs i s s' → ∀ x, SameResults i (body s x) (body s' x)

theorem exists_commandShape (i : Instr) :
    ∃ (α : Type) (ops : State → Except Fault α) (body : State → α → State), CommandShape i ops body := by
  cases i with
  | gfmul =>
    refine ⟨Unit, fun _ => .ok (), fun s _ => (s.setBlk .mz (mul (s.getBlk .mx) (s.getBlk .my))).completeOk,
      fun _ => rfl, readsBufs_pure _, fun h _ => sameResults_setBlk rfl rfl rfl ?_⟩
    rw [h.getBlk_eq (r := .mx) (by decide), h.getBlk_eq (r := .my) (by decide)]
  | inc32 =>
    refine ⟨Unit, fun _ => .ok (), fun s _ => (s.setBlk .cb (inc32 (s.getBlk .cb))).completeOk,
      fun _ => rfl, readsBufs_pure _, fun h _ => sameResults_setBlk rfl rfl rfl ?_⟩
    rw [h.getBlk_eq (r := .cb) (by decide)]
  | ghash =>
    refine ⟨_, _, _, fun _ => rfl, readsBufs_operand fun _ => rfl, fun h _ => sameResults_setBlk rfl rfl rfl ?_⟩
    rw [h.getBlk_eq (r := .hk) (by decide)]
  | derivej0 =>
    refine ⟨_, _, _, fun _ => rfl, readsBufs_operand fun _ => rfl, fun h _ => sameResults_setBlk rfl rfl rfl ?_⟩
    rw [h.getBlk_eq (r := .hk) (by decide)]
  | gctr =>
    refine ⟨_, _, _, fun _ => rfl, gctrOperands_reads, fun h _ => ?_⟩
    rw [h.getBlk_eq (r := .cb) (by decide)]
    exact sameResults_dout rfl rfl _
  | derivecommon =>
    refine ⟨_, _, _, fun _ => rfl, deriveOperands_reads, fun _ _ => sameResults_blk rfl rfl fun r hr => ?_⟩
    obtain rfl | rfl : r = .hk ∨ r = .j0 := by simpa [blkWrites] using hr
    · simp
    · simp
  | computetag t =>
    refine ⟨_, _, _, fun _ => rfl, tagOperands_reads t, fun h _ => ?_⟩
    rw [h.getBlk_eq (r := .hk) (by simp [blkReads]), h.getBlk_eq (r := .j0) (by simp [blkReads])]
    exact sameResults_completeOk nofun nofun fun _ => same_putTag _ _ _
  | encrypt t =>
    refine ⟨_, _, _, fun _ => rfl, aeadOperands_reads (fun _ => rfl) (fun _ => rfl) (fun _ => rfl) fun _ => rfl,
      fun _ _ => sameResults_completeOk nofun (fun _ => ?_) fun _ => same_putTag _ _ _⟩
    simp only [State.byte_dout_putTag]
    exact same_putDout _ _ _
  | decrypt t =>
    exact ⟨_, _, _, fun _ => rfl, decryptOperands_reads t,
      fun _ _ => sameResults_verifyAndDecrypt rfl rfl rfl _ _ _ _ _ _⟩
  | encryptappend t =>
    exact ⟨_, _, _, fun _ => rfl, aeadOperands_reads (fun _ => rfl) (fun _ => rfl) (fun _ => rfl) fun _ => rfl,
      fun _ _ => sameResults_dout rfl rfl _⟩
  | decryptappended t =>
    exact ⟨_, _, _, fun _ => rfl, aeadOperands_reads (fun _ => rfl) (fun _ => rfl) (fun _ => rfl) fun _ => rfl,
      fun _ _ => sameResults_verifyAndDecrypt rfl rfl rfl _ _ _ _ _ _⟩

/-! Stops -/

theorem of_exec_eq_fault {i : Instr} {s : State} {f : Fault} (h : exec i s = .fault f) :
    validationCode i s = none ∧ ∃ b a, f = .unwrittenByte b ∧ readsByte i s b a ∧ s.byte b a = none := by
  obtain ⟨α, ops, body, hexec, hreads, -⟩ := exists_commandShape i
  obtain ⟨hv, hops⟩ := runCommand_fault.1 ((hexec s).symm.trans h)
  obtain ⟨b, -, hread⟩ := hreads.stops hops
  obtain ⟨hf, a, ha, hnone⟩ := of_readOf_eq_error hread
  exact ⟨firstFailure_eq_none.1 hv, b, a, hf, ha, hnone⟩

theorem exists_exec_eq_fault {i : Instr} {s : State} (hv : validationCode i s = none) {b : Buf} {a : Nat}
    (ha : readsByte i s b a) (hnone : s.byte b a = none) : ∃ f, exec i s = .fault f := by
  obtain ⟨α, ops, body, hexec, hreads, -⟩ := exists_commandShape i
  cases hops : ops s with
  | error f => exact ⟨f, (hexec s).trans (runCommand_fault.2 ⟨firstFailure_eq_none.2 hv, hops⟩)⟩
  | ok x =>
    obtain ⟨v, hread⟩ := hreads.holds hops b (mem_rowBufs ha)
    exact absurd hnone (byte_ne_none_of_readOf_eq_ok hread ha)

/-- Settles O46: the operands stop exactly when a read of the row does. -/
theorem commandsStopOnlyOnValuelessBytes : Obligations.CommandsStopOnlyOnValuelessBytes := by
  refine fun i s => ⟨exec_ne_refused i s,
    ⟨fun ⟨f, hf⟩ => ?_, fun ⟨hv, b, a, ha, hnone⟩ => exists_exec_eq_fault hv ha hnone⟩,
    fun f hf => (of_exec_eq_fault hf).2⟩
  obtain ⟨hv, b, a, -, ha, hnone⟩ := of_exec_eq_fault hf
  exact ⟨hv, b, a, ha, hnone⟩

/-! Equal inputs -/

/-- Settles O50: the validations, the operands and what the body leaves are each a function of the row's inputs. -/
theorem commandsDependOnTheirInputsOnly : Obligations.CommandsDependOnTheirInputsOnly := by
  intro i s s' h
  obtain ⟨α, ops, body, hexec, hreads, hsame⟩ := exists_commandShape i
  have hchecks : firstFailure (checksOf Config.params i s') = firstFailure (checksOf Config.params i s) := by
    rw [h.checksOf_eq]
  have hops : ops s' = ops s := hreads.congr fun b _ => h.readOf_eq b
  rw [hexec s, hexec s']
  refine ⟨fun t ht => ?next, fun f hf => ?fault⟩
  case next =>
    obtain ⟨k, hk, rfl⟩ | ⟨hn, x, hx, rfl⟩ := runCommand_next ht
    · exact ⟨_, runCommand_raise (hchecks.trans hk), sameResults_raise k⟩
    · exact ⟨_, runCommand_ok (hchecks.trans hn) (hops.trans hx), hsame h x⟩
  case fault =>
    obtain ⟨hn, hx⟩ := runCommand_fault.1 hf
    exact runCommand_fault.2 ⟨hchecks.trans hn, hops.trans hx⟩

/-! Failing again, 60_exceptions.md R187 -/

/-- `raise` writes nothing that a command reads. -/
theorem sameInputs_raise (i : Instr) (s : State) (k : ErrorKind) (d : Bool) : SameInputs i s (s.raise k d) :=
  ⟨fun _ _ => rfl, fun _ => rfl, fun _ => rfl, fun _ => rfl, fun _ => rfl, fun _ _ _ => rfl⟩

/-- Of the error kind, `raise` takes the code only, and a second one with the same code changes nothing. -/
theorem State.raise_raise (s : State) {k k' : ErrorKind} (h : k'.code = k.code) (d : Bool) :
    (s.raise k d).raise k' d = s.raise k d := by
  rw [State.raise, State.raise_status, State.raise_doutlen, statusAfter_statusAfter, h, State.raise]
  cases d <;> rfl

/-- Settles O47: a failed command is raised, so its inputs are as before, so it is raised again with the same code. -/
theorem failedCommandsFailAgain : Obligations.FailedCommandsFailAgain := by
  intro i s t h hc
  obtain ⟨k, rfl, -⟩ := (exec_next h).eq_raise_of_code_ne_zero hc
  obtain ⟨t', h', hcode, -⟩ := (commandsDependOnTheirInputsOnly i s _ (sameInputs_raise i s k (hasDout i))).1 _ h
  obtain ⟨k', rfl, -⟩ := (exec_next h').eq_raise_of_code_ne_zero (hcode ▸ hc)
  rw [State.code_raise, State.code_raise] at hcode
  rw [h', State.raise_raise s hcode]

end Sys2Proof.Machine

/-! The provider, 50_block_cipher_port.md R171: what a command makes of it goes through the calls of R175's table. -/

namespace Sys2Proof.Machine

/-! Functions of the provider's answers -/

/-- The counter block of a byte is among the blocks of its run. -/
theorem iterate_mem_gctrCalls (icb : Block) {s : List Byte} {j : Nat} (h : j < s.length) :
    inc32^[j / 16] icb ∈ gctrCalls icb s := by
  rw [gctrCalls_eq_map_range]
  exact List.mem_map_of_mem (List.mem_range.2 (by omega))

section Agree
variable {e e' : Block → Block} {icb : Block} {iv aad c tag : List Byte} {t : Nat}

theorem gctr_congr {s : List Byte} (h : ∀ b ∈ gctrCalls icb s, e' b = e b) : gctr e' icb s = gctr e icb s := by
  refine List.ext_getElem (by rw [length_gctr, length_gctr]) fun j hj _ => ?_
  rw [length_gctr] at hj
  rw [getElem_gctr, getElem_gctr, h _ (iterate_mem_gctrCalls icb hj)]

theorem computeTag_congr {j0 : Block} (h : e' j0 = e j0) (hk : Block) (a c : List Byte) (t : Nat) :
    computeTag e' hk j0 a c t = computeTag e hk j0 a c t := by
  rw [computeTag_eq, computeTag_eq, h]

theorem deriveJ0int_congr (h : e' 0#128 = e 0#128) (iv : List Byte) : deriveJ0int e' iv = deriveJ0int e iv := by
  rw [deriveJ0int, hashSubkey, h, deriveJ0int, hashSubkey]

theorem expectedTag_congr (h0 : e' 0#128 = e 0#128) (hj0 : e' (deriveJ0int e iv) = e (deriveJ0int e iv))
    (aad c : List Byte) (t : Nat) : expectedTag e' iv aad c t = expectedTag e iv aad c t := by
  rw [expectedTag, hashSubkey, deriveJ0int_congr h0, h0, computeTag_congr hj0, expectedTag, hashSubkey]

theorem cryptData_congr (h0 : e' 0#128 = e 0#128)
    (h : ∀ b ∈ gctrCalls (inc32 (deriveJ0int e iv)) c, e' b = e b) : cryptData e' iv c = cryptData e iv c := by
  rw [cryptData, deriveJ0int_congr h0, gctr_congr h, cryptData]

theorem sealCalls_congr (h0 : e' 0#128 = e 0#128) (iv c : List Byte) : sealCalls e' iv c = sealCalls e iv c := by
  rw [sealCalls, deriveJ0int_congr h0, sealCalls]

/-- Two providers that agree on the calls of sealing seal alike. -/
theorem seal_congr (h : ∀ b ∈ sealCalls e iv c, e' b = e b) :
    cryptData e' iv c = cryptData e iv c ∧ (∀ x, expectedTag e' iv aad x t = expectedTag e iv aad x t) ∧
      sealCalls e' iv c = sealCalls e iv c := by
  have h0 : e' 0#128 = e 0#128 := h _ (by simp [sealCalls])
  have hj0 : e' (deriveJ0int e iv) = e (deriveJ0int e iv) := h _ (by simp [sealCalls])
  exact ⟨cryptData_congr h0 fun b hb => h b (by simp [sealCalls, hb]), fun x => expectedTag_congr h0 hj0 aad x t,
    sealCalls_congr h0 iv c⟩

/-- Two providers that agree on the calls of opening open alike: the data blocks matter only where the tag matches. -/
theorem open_congr (h : ∀ b ∈ openCalls e iv aad c tag t, e' b = e b) (s : State) :
    verifyAndDecrypt s e' iv aad c tag t = verifyAndDecrypt s e iv aad c tag t ∧
      openCalls e' iv aad c tag t = openCalls e iv aad c tag t := by
  have h0 : e' 0#128 = e 0#128 := h _ (by simp [openCalls])
  have hj0 : e' (deriveJ0int e iv) = e (deriveJ0int e iv) := h _ (by simp [openCalls])
  refine ⟨?_, by rw [openCalls, deriveJ0int_congr h0, expectedTag_congr h0 hj0, openCalls]⟩
  rw [verifyAndDecrypt, verifyAndDecrypt, expectedTag_congr h0 hj0]
  split
  · next hmatch => rw [cryptData_congr h0 fun b hb => h b (by simp [openCalls, hmatch, hb])]
  · rfl

end Agree

/-! Commands under two providers -/

section Commands
variable {α : Type} {p p' : Params} {i : Instr} {ops : Except Fault α} {body body' : α → State} {key : α → List Byte}
  {blocks blocks' : α → List Block} {s : State}

/-- Where the checks are the same, a command and its list of calls are the same as soon as body and calls are, on the operands
of a command that passes the checks. -/
theorem runCommand_callsAfterChecks_congr (hchecks : checksOf p' i s = checksOf p i s)
    (h : ∀ x, (∀ b ∈ blocks x, { key := key x, block := b } ∈ callsAfterChecks p i ops key blocks s) →
      body' x = body x ∧ blocks' x = blocks x) :
    runCommand p' i ops body' s = runCommand p i ops body s ∧
      callsAfterChecks p' i ops key blocks' s = callsAfterChecks p i ops key blocks s := by
  cases hv : firstFailure (checksOf p i s) with
  | some k =>
    have hv' : firstFailure (checksOf p' i s) = some k := hchecks ▸ hv
    rw [runCommand_raise hv, runCommand_raise hv', callsAfterChecks_raise hv, callsAfterChecks_raise hv']
    exact ⟨rfl, rfl⟩
  | none =>
    have hv' : firstFailure (checksOf p' i s) = none := hchecks ▸ hv
    cases ops with
    | error f => simp only [runCommand, callsAfterChecks, hv, hv', and_self]
    | ok x =>
      rw [callsAfterChecks_ok hv rfl] at h
      obtain ⟨hbody, hblocks⟩ := h x fun b hb => List.mem_map_of_mem hb
      rw [runCommand_ok hv rfl, runCommand_ok hv' rfl, callsAfterChecks_ok hv rfl, callsAfterChecks_ok hv' rfl, hbody,
        hblocks]
      exact ⟨rfl, rfl⟩

end Commands

/-- The checks do not look at the provider. -/
theorem checksOf_cipher (p : Params) (e : List Byte → Block → Block) (i : Instr) (s : State) :
    checksOf { p with cipher := e } i s = checksOf p i s := by cases i <;> rfl

theorem exec_eq_execOn (i : Instr) (s : State) : exec i s = execOn Config.params i s := by cases i <;> rfl

theorem execOn_portCalls_congr (p : Params) (e : List Byte → Block → Block) (i : Instr) (s : State)
    (h : ∀ c ∈ portCalls p i s, e c.key c.block = p.cipher c.key c.block) :
    execOn { p with cipher := e } i s = execOn p i s ∧ portCalls { p with cipher := e } i s = portCalls p i s := by
  have hchecks := checksOf_cipher p e i s
  cases i with
  | gfmul | inc32 => exact ⟨rfl, rfl⟩
  | ghash | derivej0 => exact ⟨by simp only [execOn, ghashOn, derivej0On, runCommand, hchecks], rfl⟩
  | gctr =>
    refine runCommand_callsAfterChecks_congr hchecks fun o hcalls => ⟨?_, rfl⟩
    dsimp only
    rw [gctr_congr fun b hb => h _ (hcalls b hb)]
  | derivecommon =>
    refine runCommand_callsAfterChecks_congr hchecks fun o hcalls => ⟨?_, rfl⟩
    have h0 : e o.key 0#128 = p.cipher o.key 0#128 := h _ (hcalls _ (List.mem_singleton_self _))
    simp only [hashSubkey, h0]
  | computetag t =>
    refine runCommand_callsAfterChecks_congr hchecks fun o hcalls => ⟨?_, rfl⟩
    have hj0 : e o.key (s.getBlk .j0) = p.cipher o.key (s.getBlk .j0) := h _ (hcalls _ (List.mem_singleton_self _))
    simp only [computeTag_congr hj0]
  | encrypt t | encryptappend t =>
    refine runCommand_callsAfterChecks_congr hchecks fun o hcalls => ?_
    obtain ⟨hcrypt, htag, hseal⟩ := seal_congr (aad := o.aad) (t := t) fun b hb => h _ (hcalls b hb)
    simp only [hcrypt, htag, hseal, and_self]
  | decrypt t =>
    exact runCommand_callsAfterChecks_congr hchecks fun o hcalls => open_congr (fun b hb => h _ (hcalls b hb)) s
  | decryptappended t =>
    exact runCommand_callsAfterChecks_congr hchecks fun o hcalls => open_congr (fun b hb => h _ (hcalls b hb)) s

/-- Settles O51: on the operands of a command that passes its checks, its body asks the provider for the listed blocks
only. -/
theorem providerMattersOnlyThroughItsCalls : Obligations.ProviderMattersOnlyThroughItsCalls :=
  ⟨exec_eq_execOn, execOn_portCalls_congr⟩

end Sys2Proof.Machine

/-! The pseudo-instruction `load`, 30_encoding.md R89: the run of its moves. -/

namespace Sys2Proof.Machine

/-! Writes of a string, byte by byte -/

theorem setBytes_nil (s : State) (b : Buf) (a : Nat) : s.setBytes b a [] = s := by cases b <;> rfl

theorem setBytes_cons (s : State) (b : Buf) (a : Nat) (x : Byte) (v : List Byte) :
    s.setBytes b a (x :: v) = (s.setByte b a x).setBytes b (a + 1) v := by cases b <;> rfl

/-! Runs -/

theorem run_succ {s t : State} (h : step s = .next t) (k : Nat) :
    Sys2Proof.core.run (k + 1) s = Sys2Proof.core.run k t := by
  have hcore : Sys2Proof.core.step s = .next t := h
  simp only [Host.Core.run, hcore]

/-- The moves of `bufw` lines write their string, and leave what waits behind them. -/
theorem run_bufwLines {s : State} {b : Buf} {a : Nat} {v : List Byte} {rest : List Input} (hb : b ≠ .dout)
    (hp : s.pending = (bufwLines b a v).map (fun l => .move l.move) ++ rest)
    (hfit : a + v.length ≤ capacity Config.params b) (k : Nat) :
    Sys2Proof.core.run (v.length + k) s = Sys2Proof.core.run k ({ s with pending := rest }.setBytes b a v) := by
  induction v generalizing s a with
  | nil =>
    obtain rfl : s.pending = rest := hp
    rw [setBytes_nil, List.length_nil, Nat.zero_add]
  | cons x v ih =>
    rw [List.length_cons] at hfit
    have hstep := (step_move hp).trans (hostBufWrite_of_ne_dout (by omega) hb x _)
    rw [List.length_cons, Nat.succ_add, run_succ hstep, ih rfl (by omega), setBytes_cons]
    rfl

theorem step_csrWrite {s : State} {n : Nat} {w : Word} {rest : List Input}
    (hp : s.pending = .move (.csrWrite n w) :: rest) (hn : n ≠ 0) :
    step s = .next ({ s with pending := rest }.setCsr n w) :=
  (step_move hp).trans (hostMove_csrWrite_of_ne_zero hn w _)

theorem bufwLines_length (b : Buf) (a : Nat) (v : List Byte) : (bufwLines b a v).length = v.length := by
  induction v generalizing a with
  | nil => rfl
  | cons x v ih => rw [bufwLines, List.length_cons, List.length_cons, ih]

/-- The machine after `load`: the string in its buffer, and its length in the length register the buffer has. -/
def loadedState (s : State) (b : Buf) (v : List Byte) : State :=
  match lenCsr b with
  | some n => (s.setBytes b 0 v).setCsr n (BitVec.ofNat 32 v.length)
  | none => s.setBytes b 0 v

theorem run_loadLines {s : State} {b : Buf} {v : List Byte} (hp : s.pending = []) (hb : b ≠ .dout)
    (hfit : v.length ≤ capacity Config.params b) :
    Sys2Proof.core.run (loadLines b v).length (s.withScript (loadLines b v)) = .next (loadedState s b v) := by
  have hfit' : 0 + v.length ≤ capacity Config.params b := by rwa [Nat.zero_add]
  have hscript (ls : List Line) : (s.withScript (bufwLines b 0 v ++ ls)).pending =
      (bufwLines b 0 v).map (fun l => .move l.move) ++ ls.map (fun l => .move l.move) := by
    rw [State.withScript, hp, List.nil_append, List.map_append]
  have hs : { s with pending := [] } = s := by rw [← hp]
  cases hn : lenCsr b with
  | none =>
    have hrun := run_bufwLines hb (hscript []) hfit' 0
    simp only [loadLines, loadedState, hn, List.length_append, bufwLines_length]
    refine hrun.trans (congrArg (fun u => Host.Outcome.next (State.setBytes u b 0 v)) hs)
  | some n =>
    have hne : n ≠ 0 := by
      rintro rfl
      cases b <;> cases hn
    have hrun := run_bufwLines hb (hscript [.csrw n (BitVec.ofNat 32 v.length)]) hfit' 1
    simp only [loadLines, loadedState, hn, List.length_append, bufwLines_length]
    refine (hrun.trans (run_succ (step_csrWrite rfl hne) 0)).trans ?_
    exact congrArg (fun u => Host.Outcome.next (State.setCsr (State.setBytes u b 0 v) n (BitVec.ofNat 32 v.length))) hs

/-! What the loaded machine holds, and what it keeps -/

theorem capacity_lt (b : Buf) : capacity Config.params b < 2 ^ 32 := by
  cases b with
  | key | tag => decide
  | iv => exact Config.capIv_lt
  | aad => exact Config.capAad_lt
  | din => exact Config.capDin_lt.trans (by decide)
  | dout => exact capDin_add_lt

theorem byte_loadedState (s : State) (b : Buf) (v : List Byte) (b' : Buf) (a : Nat) :
    (loadedState s b v).byte b' a = (s.setBytes b 0 v).byte b' a := by
  unfold loadedState
  split
  · exact State.byte_setCsr _ _ _ _ _
  · rfl

theorem holds_loadedState (s : State) (b : Buf) (v : List Byte) : Holds (loadedState s b v) b 0 v := by
  intro j hj
  rw [byte_loadedState, State.byte_setBytes, dif_pos ⟨rfl, Nat.zero_le _, by omega⟩]
  simp

theorem lenOf_loadedState (s : State) {b : Buf} (v : List Byte) (hb : b ≠ .dout) (hb' : b ≠ .tag) :
    (loadedState s b v).lenOf b = BitVec.ofNat 32 v.length := by
  cases b with
  | key | iv | aad | din => rfl
  | dout => exact absurd rfl hb
  | tag => exact absurd rfl hb'

theorem frame_setCsr (s : State) (n : Nat) (v : Word) : Frame s (s.setCsr n v) [] [n] noBytes := by
  have hcsr : KeepsCsrs s (s.setCsr n v) [n] := by
    intro m hm
    have hne : m ≠ n := List.ne_of_not_mem_cons hm
    unfold State.setCsr
    split
    case h_5 => rfl
    all_goals
      unfold State.csr
      split <;> trivial
  refine ⟨fun r _ => ?_, hcsr, fun b a _ => State.byte_setCsr s n v b a, ?_⟩ <;> unfold State.setCsr
  · split <;> rfl
  · split <;> exact ⟨rfl, rfl, rfl⟩

theorem frame_setBytes (s : State) (b : Buf) (v : List Byte) :
    Frame s (s.setBytes b 0 v) [] [] (fun b' a => b' = b ∧ a < v.length) :=
  ⟨fun _ _ => rfl, keepsCsrs_of (.inr rfl) rfl rfl rfl rfl (.inr rfl),
    fun b' a h => by rw [State.byte_setBytes, dif_neg fun hd => h ⟨hd.1, hd.2.2⟩], rfl, rfl, rfl⟩

theorem frame_loadedState (s : State) (b : Buf) (v : List Byte) :
    Frame s (loadedState s b v) [] (match lenCsr b with | some n => [n] | none => [])
      (fun b' a => b' = b ∧ a < v.length) := by
  unfold loadedState
  cases lenCsr b with
  | some n =>
    exact (frame_setBytes s b v).trans ((frame_setCsr _ n _).mono (fun _ => id) (fun _ => id) fun _ _ => False.elim)
  | none => exact frame_setBytes s b v

/-- Settles O53: the run of the `bufw` lines writes the string and the `csrw` line its length. -/
theorem loadScriptLoadsTheOperand : Obligations.LoadScriptLoadsTheOperand := by
  intro s b v hp hb hfit
  have hheld := holds_loadedState s b v
  refine ⟨_, run_loadLines hp hb hfit, hheld, fun hb' => ⟨?_, hheld⟩, frame_loadedState s b v⟩
  rw [lenOf_loadedState s v hb hb', BitVec.toNat_ofNat, Nat.mod_eq_of_lt (hfit.trans_lt (capacity_lt b))]

end Sys2Proof.Machine
